-- ==== Sys2Proof/Word.lean ====
section
/-! DEFINITION. The widths of the checksum block's values (spec 00_scope.md R8): every value is unsigned. -/

namespace Sys2Proof

/-- `u8`: a byte of the buffer or of a stream (R8). -/
abbrev Byte := BitVec 8

/-- `u16`: the unit of summation (R5), a checksum, a length field. -/
abbrev Half := BitVec 16

/-- `u32`: a register, a command word, the data of a transaction (R20, R22). -/
abbrev Word := BitVec 32

end Sys2Proof
end

