-- ==== Sys2Proof/Syntax.lean ====
section
/-! DEFINITION. The commands of the block (spec 30_encoding.md R82), one constructor per row of spec/opcode_table.json. -/

namespace Sys2Proof

/-- A command. FEED carries the field N of its word (R83); every other operand is a register (R84). -/
inductive Instr where
  /-- NOP (R107) -/
  | nop
  /-- CLR (R105) -/
  | clr
  /-- ADD (R106) -/
  | add
  /-- FEED N (R108) -/
  | feed (n : BitVec 3)
  /-- FIN (R110) -/
  | fin
  /-- PHB (R132) -/
  | phb
  /-- PHA (R133) -/
  | pha
  /-- VAL (R140) -/
  | val
  deriving DecidableEq, Repr

end Sys2Proof
end

