-- ==== Sys2Proof/WellFormed.lean ====
section
/-! DEFINITION. Which commands have an encoding (spec 30_encoding.md R83): FEED's N is 1 to 4. -/

namespace Sys2Proof

/-- The legal values of FEED's N (R83): 1 to 4; 0, 5, 6 and 7 are illegal. -/
abbrev feedCountLegal (n : BitVec 3) : Prop := 1 ≤ n.toNat ∧ n.toNat ≤ 4

/-- A command that some legal word encodes (R82, R83). -/
def Instr.wellFormed : Instr → Bool
  | .nop => true
  | .clr => true
  | .add => true
  | .feed n => decide (feedCountLegal n)
  | .fin => true
  | .phb => true
  | .pha => true
  | .val => true

/-- `Instr.wellFormed` as a proposition. -/
abbrev WellFormed (i : Instr) : Prop := i.wellFormed = true

end Sys2Proof
end

