-- ==== Sys2Proof/Decode.lean ====
section
/-! DEFINITION. From a command word to a command and back (spec 30_encoding.md R80 to R87). -/

namespace Sys2Proof

/-- Why a command word is illegal: the four cases of 60_exceptions.md R176. All raise the same CmdError(CMD) (R81). -/
inductive IllegalWord where
  /-- RSV, bits [31:11], is not 0. -/
  | reservedBits
  /-- OPC is 0x08 to 0xFF. -/
  | reservedOpcode
  /-- OPC is 0x03 (FEED) and N is 0, 5, 6 or 7. -/
  | feedCount
  /-- OPC is not 0x03 and N is not 0. -/
  | strayCount
  deriving DecidableEq, Repr

/-- OPC, bits [7:0] of a command word (R80). -/
def opcodeField (w : Word) : Byte := w.extractLsb' 0 8

/-- N, bits [10:8] (R80). -/
def countField (w : Word) : BitVec 3 := w.extractLsb' 8 3

/-- RSV, bits [31:11] (R80). -/
def reservedField (w : Word) : BitVec 21 := w.extractLsb' 11 21

/-- A command other than FEED, whose N must be 0 (R83). -/
def decodePlain (n : BitVec 3) (i : Instr) : Except IllegalWord Instr :=
  if n = 0 then .ok i else .error .strayCount

/-- FEED, whose N must be 1 to 4 (R83). -/
def decodeFeed (n : BitVec 3) : Except IllegalWord Instr :=
  if feedCountLegal n then .ok (.feed n) else .error .feedCount

/-- The opcode map (R82). -/
def decodeOpcode (opc : Byte) (n : BitVec 3) : Except IllegalWord Instr :=
  match opc.toNat with
  | 0x00 => decodePlain n .nop
  | 0x01 => decodePlain n .clr
  | 0x02 => decodePlain n .add
  | 0x03 => decodeFeed n
  | 0x04 => decodePlain n .fin
  | 0x05 => decodePlain n .phb
  | 0x06 => decodePlain n .pha
  | 0x07 => decodePlain n .val
  | _ => .error .reservedOpcode

/-- Decoding (R81): total on every 32-bit word, an illegal word refused by name. -/
def decode (w : Word) : Except IllegalWord Instr :=
  if reservedField w ≠ 0 then .error .reservedBits
  else decodeOpcode (opcodeField w) (countField w)

/-- OPC of a command (R82). -/
def Instr.opcode : Instr → Byte
  | .nop => 0x00
  | .clr => 0x01
  | .add => 0x02
  | .feed _ => 0x03
  | .fin => 0x04
  | .phb => 0x05
  | .pha => 0x06
  | .val => 0x07

/-- N of a command: FEED's count, 0 for every other command (R83). -/
def Instr.count : Instr → BitVec 3
  | .nop => 0
  | .clr => 0
  | .add => 0
  | .feed n => n
  | .fin => 0
  | .phb => 0
  | .pha => 0
  | .val => 0

/-- The command word: RSV = 0, then N, then OPC (R80). -/
def encode (i : Instr) : Word := (0 : BitVec 21) ++ i.count ++ i.opcode

/-- The command word whose low `nbits` bits are `w`'s and whose other bits are 0. -/
def tableWord (nbits w : Nat) : Word := BitVec.ofNat 32 (w % 2 ^ nbits)

/-- What the decoder reads from the opcode table's bits. A command is one 32-bit word (R87), so bits past 31 that are
not 0 make no command. -/
def decodeTableWord (nbits w : Nat) : Option Instr :=
  if w % 2 ^ nbits < 2 ^ 32 then
    match decode (tableWord nbits w) with
    | .ok i => some i
    | .error _ => none
  else none

end Sys2Proof
end

