-- ==== Sys2Proof/Config.lean ====
section
/-! DEFINITION. What an instance of the block fixes (spec 00_scope.md R5), and the values the spec leaves free. -/

namespace Sys2Proof

/-- The BUF_BYTES an instance may have (R5): a multiple of 4, from 64 to 65536. -/
abbrev Config.LegalBufBytes (n : Nat) : Prop := n % 4 = 0 ∧ 64 ≤ n ∧ n ≤ 65536

/-- BUF_BYTES of the spec's reference instance (R5), the instance `State.reset` describes.
DESIGN CHOICE (log entry 3); unsafe only for a claim about `State.reset` taken as a claim about every instance. -/
def Config.referenceBufBytes : Nat := 2048

/-- The constant of the ID register (R24). -/
def Config.identification : Word := 0x43530100

/-- FREE VALUE (R7, R47, R190): the draw that byte `a` of BUF holds after reset number `epoch`, until the host writes it.
It has no body: nothing can be proved of its value (log entry 4). -/
opaque Config.freeByte : (epoch a : Nat) → Byte

/-- OPEN PARAMETER (R5): BLOCK_BASE is aligned to 0x20000, so it is 0x20000 times this number, which has no body (log entry 5). -/
opaque Config.blockIndex : Nat

/-- BLOCK_BASE, the host address of the aperture (R5, R60). -/
def Config.blockBase : Nat := 0x20000 * Config.blockIndex

end Sys2Proof
end

