-- ==== Sys2Proof/Machine/State.lean ====
section
/-! DEFINITION. The state of the checksum block (spec 10_state.md, 70_reset_and_hazards.md R190) and the types of what crosses
its port (10_state.md R20). -/

namespace Sys2Proof.Machine

/-- The causes of a bus error (60_exceptions.md R171), in the order of its table. `route` raises them; the block answers ERR,
changes nothing and takes the next transaction (R170, R173), so a fault is recorded in the response (`Response.err`) and no
step stops on one. Safe: a claim about a run without faults takes their absence as a premise (log entry 2). -/
inductive Fault where
  /-- `t_size` is the code 3. Raised by `route`; safe. -/
  | badSize
  /-- 0x100 <= off <= 0xFFFF (R61). Raised by `route`; safe. -/
  | reservedRegion
  /-- off is not a multiple of the size (R69). Raised by `route`; safe. -/
  | misaligned
  /-- a register access of 1 or 2 bytes (R63). Raised by `route`; safe. -/
  | regWidth
  /-- slot 0x3C or 0x54 to 0xFC (R22). Raised by `route`; safe. -/
  | reservedSlot
  /-- a write to a read-only register (R23). Raised by `route`; safe. -/
  | roWrite
  /-- a buffer offset at or past BUF_BYTES (R65). Raised by `route`; safe. -/
  | bufRange
  deriving DecidableEq, Repr

/-- Why a step has no meaning. -/
inductive Refusal where
  /-- An arm of `exec` without a meaning. No arm raises it: every command of the table is modelled. Safe. -/
  | notModelled (mnemonic : String)
  deriving DecidableEq, Repr

/-- The codes of `raise CmdError(code)` (60_exceptions.md R175). -/
inductive CmdError where
  /-- CmdError(CMD): an illegal command word (R176). -/
  | cmd
  /-- CmdError(RANGE): ADD's or VAL's range leaves the buffer (R177). -/
  | range
  deriving DecidableEq, Repr

/-- The reasons of a parse failure (10_state.md R40, 42_validator.md R150). -/
inductive ParseReason where
  /-- SHORT_FRAME (R142) -/
  | shortFrame
  /-- TOTLEN_GT_FRAME (R144) -/
  | totlenGtFrame
  /-- IHL_LT_20 (R145) -/
  | ihlLt20
  /-- SEG_SHORT (R146) -/
  | segShort
  deriving DecidableEq, Repr

/-- What V_STATUS holds (10_state.md R40). A reason exists exactly when the outcome is PARSE_FAIL, so the codes that no rule
produces (93_implementation_defined.md I9) cannot be written down (log entry 9). -/
inductive Verdict where
  /-- NONE: no VAL has completed since reset. -/
  | noneYet
  /-- MATCH -/
  | matched
  /-- MISMATCH -/
  | mismatched
  /-- PARSE_FAIL with its PF_REASON. -/
  | parseFail (reason : ParseReason)
  deriving DecidableEq, Repr

/-- The twenty registers of the register window (10_state.md R22). -/
inductive RegName where
  | ID | BUFSIZE | CMD | STATUS | ADDR | LEN | DATA | ACC | RESULT | PH_SRC
  | PH_DST | PH_LEN | PHDR0 | PHDR1 | PHDR2 | V_STATUS | V_IHL | V_TOTLEN | V_EMB | V_CMP
  deriving DecidableEq, Repr

/-- The registers of access class RW (10_state.md R22, R23). -/
inductive OperandReg where
  | ADDR | LEN | DATA | PH_SRC | PH_DST | PH_LEN
  deriving DecidableEq, Repr

/-- A presented transaction: the ports `t_write`, `t_off`, `t_size` and `t_wdata` (10_state.md R20). -/
structure Transaction where
  /-- 1 = `Write`, 0 = `Read` -/
  write : Bool
  /-- the byte offset in the aperture -/
  off : BitVec 17
  /-- the size code: 0 = 1 byte, 1 = 2 bytes, 2 = 4 bytes; 3 is answered ERR -/
  size : BitVec 2
  /-- the write data, ignored by a read -/
  wdata : Word
  deriving DecidableEq, Repr

/-- An event at the port (00_scope.md R6). -/
inductive PortEvent where
  /-- A transaction is presented. -/
  | access (t : Transaction)
  /-- `rst` is asserted; `cut` is the transaction presented at that moment, which is lost (70_reset_and_hazards.md R191). -/
  | reset (cut : Option Transaction)
  deriving DecidableEq, Repr

/-- A response (20_memory.md R62, 60_exceptions.md R170): OKAY with its read data, or ERR. The cause is the model's record,
which the host does not see (R171): `Response.tErr` and `Response.tRdata` are what it sees. -/
inductive Response where
  | okay (rdata : Word)
  | err (cause : Fault)
  deriving DecidableEq, Repr

/-- What a taken transaction does (20_memory.md R63, R66, R76). -/
inductive Access where
  /-- a read of a register -/
  | readReg (r : RegName)
  /-- a write to CMD: the word is a command (R26) -/
  | command (w : Word)
  /-- a write to STATUS (R27) -/
  | clearStatus (w : Word)
  /-- a write to an RW register (R23) -/
  | writeOperand (r : OperandReg) (v : Word)
  /-- a read of `n` buffer bytes at `a` -/
  | readBuffer (a n : Nat)
  /-- a write of the bytes to the buffer from `a` on -/
  | writeBuffer (a : Nat) (bytes : List Byte)
  deriving DecidableEq, Repr

/-- The written part of BUF: (offset, byte) pairs, offsets strictly rising, one entry for each byte the host has written
since reset (log entry 4). -/
abbrev Memory := List Host.Cell

/-- The state of the block (10_state.md R24 to R48), and the two ends of its port. -/
structure State where
  /-- BUF_BYTES, the instance's parameter (R5), which BUFSIZE reads (R25); no event changes it -/
  bufBytes : Nat
  /-- STATUS.ERR_CMD (R27) -/
  errCmd : Bool
  /-- STATUS.ERR_RANGE (R27) -/
  errRange : Bool
  /-- PHASE (R36): `true` is 1, the next byte is the low byte of the open word -/
  phase : Bool
  /-- ADDR (R28) -/
  addr : Word
  /-- LEN (R29) -/
  len : Word
  /-- DATA (R30) -/
  data : Word
  /-- ACC (R31) -/
  acc : Word
  /-- RESULT[15:0] (R32) -/
  result : Half
  /-- PH_SRC (R33) -/
  phSrc : Word
  /-- PH_DST (R34) -/
  phDst : Word
  /-- PH_LEN[15:0] (R35) -/
  phLen : Half
  /-- PHDR0 (R37) -/
  phdr0 : Word
  /-- PHDR1 (R38) -/
  phdr1 : Word
  /-- PHDR2 (R39) -/
  phdr2 : Word
  /-- V_STATUS (R40) -/
  verdict : Verdict
  /-- V_IHL[5:0] (R41) -/
  vIhl : BitVec 6
  /-- V_TOTLEN[15:0] (R42) -/
  vTotlen : Half
  /-- V_EMB[15:0] (R43) -/
  vEmb : Half
  /-- V_CMP[15:0] (R44) -/
  vCmp : Half
  /-- BUF (R46, R47): the bytes written since reset -/
  buf : Memory
  /-- the model's own: how many resets came before, which makes the draws of R47 fresh at every reset (log entry 4) -/
  epoch : Nat
  /-- the model's own: the port events not yet taken, the next one first (log entry 1) -/
  inbox : List PortEvent
  /-- the model's own: the responses returned so far, oldest first (log entry 1) -/
  outbox : List Response
  deriving DecidableEq, Repr

/-- The block after reset (70_reset_and_hazards.md R190), as the reference instance (R5), with no event at its port.
`epoch` 0 is a DESIGN CHOICE (log entry 4). -/
def State.reset : State where
  bufBytes := Config.referenceBufBytes
  errCmd := false
  errRange := false
  phase := false
  addr := 0
  len := 0
  data := 0
  acc := 0
  result := 0
  phSrc := 0
  phDst := 0
  phLen := 0
  phdr0 := 0
  phdr1 := 0
  phdr2 := 0
  verdict := .noneYet
  vIhl := 0
  vTotlen := 0
  vEmb := 0
  vCmp := 0
  buf := []
  epoch := 0
  inbox := []
  outbox := []

end Sys2Proof.Machine
end

