-- ==== Sys2Proof/Machine/Ops.lean ====
section
/-! DEFINITION. The operations over the buffer, the registers' storage and the port that the commands and the bus share. -/

namespace Sys2Proof.Machine

/-! ## The buffer (10_state.md R46, R47) -/

/-- The byte the host has written at offset `a` since reset, if any. -/
def Memory.find? : Memory → Nat → Option Byte
  | [], _ => none
  | (b, v) :: rest, a => if a = b then some v else Memory.find? rest a

/-- Writing one byte keeps the offsets strictly rising. -/
def Memory.insert : Memory → Nat → Byte → Memory
  | [], a, v => [(a, v)]
  | (b, w) :: rest, a, v =>
    if a < b then (a, v) :: (b, w) :: rest
    else if a = b then (a, v) :: rest
    else (b, w) :: Memory.insert rest a v

/-- Writing bytes from offset `a` on. -/
def Memory.insertAll : Memory → Nat → List Byte → Memory
  | m, _, [] => m
  | m, a, v :: vs => Memory.insertAll (m.insert a v) (a + 1) vs

/-- The canonical form: offsets strictly rising, so that equal buffers are equal data. -/
def Memory.wf : Memory → Bool
  | [] => true
  | (_, _) :: [] => true
  | (a, _) :: (b, w) :: rest => decide (a < b) && Memory.wf ((b, w) :: rest)

/-- Every listed offset is a buffer offset (R46). -/
def Memory.inside (m : Memory) (bound : Nat) : Bool := m.all fun c => decide (c.1 < bound)

/-- What a buffer byte that nothing has written since reset reads as (R47): its free draw. -/
def unwrittenByte (epoch a : Nat) : Byte := Config.freeByte epoch a

/-- BUF[a] (00_scope.md R9). -/
def State.byteAt (s : State) (a : Nat) : Byte :=
  match s.buf.find? a with
  | some v => v
  | none => unwrittenByte s.epoch a

/-- `MemRead(a, n)` (R9). -/
def State.memRead (s : State) (a n : Nat) : List Byte := (List.range n).map fun i => s.byteAt (a + i)

/-- `MemWrite(a, n, v)` (R9): only the host's buffer writes use it. -/
def State.memWrite (s : State) (a : Nat) (v : List Byte) : State := { s with buf := s.buf.insertAll a v }

/-- `range_ok(ADDR, LEN)` (40_checksum_engine.md R104), on unbounded integers. -/
def State.rangeOk (s : State) : Bool := decide (s.addr.toNat + s.len.toNat ≤ s.bufBytes)

/-- MemRead(ADDR, LEN): ADD's range and VAL's frame (R106, R141). -/
def State.operandBytes (s : State) : List Byte := s.memRead s.addr.toNat s.len.toNat

/-! ## Register writes of the commands (10_state.md R45) -/

/-- ACC and PHASE. -/
def State.setStream (s : State) (acc : Word) (phase : Bool) : State := { s with acc := acc, phase := phase }

/-- RESULT. -/
def State.setResult (s : State) (r : Half) : State := { s with result := r }

/-- PHDR0 to PHDR2. -/
def State.setPhdr (s : State) (p0 p1 p2 : Word) : State := { s with phdr0 := p0, phdr1 := p1, phdr2 := p2 }

/-- The five V_ registers. -/
def State.setVerdict (s : State) (v : Verdict) (ihl : BitVec 6) (tot emb cmp : Half) : State :=
  { s with verdict := v, vIhl := ihl, vTotlen := tot, vEmb := emb, vCmp := cmp }

/-! ## Errors (60_exceptions.md)

The block's exceptions. It has no trap (R181): `State.raise` is the whole entry of a command error, and there is no return
(R182); the host clears the sticky bits with a STATUS write (`State.clearErrors`). -/

/-- `raise CmdError(code)` (R175): sets one STATUS bit and changes nothing else. -/
def State.raise (s : State) : CmdError → State
  | .cmd => { s with errCmd := true }
  | .range => { s with errRange := true }

/-- The write-one-to-clear of STATUS (10_state.md R27): bits [31:2] of the data are ignored. -/
def State.clearErrors (s : State) (v : Word) : State :=
  { s with errCmd := s.errCmd && !v.getLsbD 0, errRange := s.errRange && !v.getLsbD 1 }

/-! ## The port (10_state.md R20) -/

/-- `t_err`: 1 on ERR. -/
def Response.tErr : Response → Bool
  | .okay _ => false
  | .err _ => true

/-- `t_rdata`: 0 on ERR (R170). -/
def Response.tRdata : Response → Word
  | .okay v => v
  | .err _ => 0

/-- One response is returned to the host (R62). -/
def State.respond (s : State) (r : Response) : State := { s with outbox := s.outbox ++ [r] }

/-- The events still waiting at the port. -/
def State.setInbox (s : State) (evs : List PortEvent) : State := { s with inbox := evs }

/-- The `Reset` event (70_reset_and_hazards.md R190): every register at its reset value and every buffer byte a fresh draw.
The instance, the events that wait and the responses already returned are not the block's to reset. -/
def State.afterReset (s : State) : State :=
  { State.reset with bufBytes := s.bufBytes, epoch := s.epoch + 1, inbox := s.inbox, outbox := s.outbox }

/-- The number of bytes a size code names (R20); the code 3 names none. -/
def sizeBytes (code : BitVec 2) : Option Nat :=
  match code.toNat with
  | 0 => some 1
  | 1 => some 2
  | 2 => some 4
  | _ => none

/-- Lane `i` of a transfer value (20_memory.md R64): bits [8i+7 : 8i]. -/
def lane (d : Word) (i : Nat) : Byte := d.extractLsb' (8 * i) 8

/-- The bytes an `n`-byte write carries, the one at the lowest offset first (R64, R66). -/
def laneBytes (n : Nat) (d : Word) : List Byte := (List.range n).map (lane d)

/-- The little-endian value of a byte sequence (R66). -/
def littleEndian : List Byte → Nat
  | [] => 0
  | b :: bs => b.toNat + 256 * littleEndian bs

/-- The transfer value of the bytes a read returns, zero above them (R64, R66). -/
def transferValue (bs : List Byte) : Word := BitVec.ofNat 32 (littleEndian bs)

end Sys2Proof.Machine
end

