-- ==== Sys2Proof/Machine/Operands.lean ====
section
/-! DEFINITION. Every operand form: the bytes of a register, FEED's bytes, the pseudo-header's bytes, the fields of a frame. -/

namespace Sys2Proof.Machine

/-- `be16(hi, lo)` (00_scope.md R8, 20_memory.md R67): network byte order. -/
def be16 (hi lo : Byte) : Half := hi ++ lo

/-- Four bytes as a register, the first in bits [31:24] (41_pseudo_header.md R131). -/
def be32 (b0 b1 b2 b3 : Byte) : Word := b0 ++ b1 ++ b2 ++ b3

/-- The four bytes of a register, bits [31:24] first (R131). -/
def wordBytes (w : Word) : List Byte := [w.extractLsb' 24 8, w.extractLsb' 16 8, w.extractLsb' 8 8, w.extractLsb' 0 8]

/-- The low `n` bytes of DATA, most significant first (40_checksum_engine.md R108). -/
def feedOperand (n : Nat) (d : Word) : List Byte := (List.range n).map fun i => d.extractLsb' (8 * (n - 1 - i)) 8

/-- `ph_bytes()` (R131): the twelve bytes of PHDR0 to PHDR2. -/
def State.phBytes (s : State) : List Byte := wordBytes s.phdr0 ++ wordBytes s.phdr1 ++ wordBytes s.phdr2

/-- PHDR2: the zero byte, the protocol number 6, the TCP length (10_state.md R39). -/
def phdr2Of (tcpLen : Half) : Word := (0x0006 : Half) ++ tcpLen

/-! ## A frame (42_validator.md) -/

/-- F[i]. The checks of R142 to R146 come before every use, so an offset past the end, where this reads 0, is never used
(log entry 12). -/
def frameByte (f : List Byte) (i : Nat) : Byte := f.getD i 0

/-- The IPv4 header length in bytes (R143): the low four bits of F[14], times 4. -/
def frameIhl (f : List Byte) : Nat := (frameByte f 14).toNat % 16 * 4

/-- The IPv4 total length (R143). -/
def frameTotlen (f : List Byte) : Half := be16 (frameByte f 16) (frameByte f 17)

/-- `seglen`, signed (R146). -/
def frameSeglen (f : List Byte) : Int := ((frameTotlen f).toNat : Int) - (frameIhl f : Int)

/-- The TCP segment S = F[14 + ihl .. 14 + tot) (R147). -/
def frameSegment (f : List Byte) : List Byte :=
  (f.take (14 + (frameTotlen f).toNat)).drop (14 + frameIhl f)

/-- The embedded checksum (R148). -/
def segmentChecksum (seg : List Byte) : Half := be16 (frameByte seg 16) (frameByte seg 17)

/-- Z: the segment with its checksum field zero (R148). -/
def zeroedSegment (seg : List Byte) : List Byte := (seg.set 16 0).set 17 0

/-- The source address of the pseudo-header, F[26 .. 30) (R149). -/
def frameSource (f : List Byte) : Word := be32 (frameByte f 26) (frameByte f 27) (frameByte f 28) (frameByte f 29)

/-- The destination address, F[30 .. 34) (R149). -/
def frameDestination (f : List Byte) : Word := be32 (frameByte f 30) (frameByte f 31) (frameByte f 32) (frameByte f 33)

/-- The parse checks (R142 to R146) in the order of 60_exceptions.md R178: the first that holds, if any. -/
def parseCheck (f : List Byte) : Option ParseReason :=
  if f.length < 34 then some .shortFrame
  else if f.length < 14 + (frameTotlen f).toNat then some .totlenGtFrame
  else if frameIhl f < 20 then some .ihlLt20
  else if frameSeglen f < 18 then some .segShort
  else none

end Sys2Proof.Machine
end

