-- ==== Sys2Proof/Machine/Stream.lean ====
section
/-! DEFINITION. The arithmetic of the engine: the accumulator, the fold and the stream (40_checksum_engine.md R101 to R103). -/

namespace Sys2Proof.Machine

/-- `acc_add(a, v)` (R102): the 33-bit sum with its carry added back into bit 0. -/
def accAdd (a : Word) (v : Half) : Word :=
  let t := a.toNat + v.toNat
  BitVec.ofNat 32 (t % 2 ^ 32 + t / 2 ^ 32)

/-- `fold16(a)` (R103): exactly two folds, the second unconditional. -/
def fold16 (a : Word) : Half :=
  let f1 := a.toNat / 2 ^ 16 + a.toNat % 2 ^ 16
  let f2 := f1 / 2 ^ 16 + f1 % 2 ^ 16
  BitVec.ofNat 16 f2

/-- The checksum of an accumulator: the complement of its fold (R110). -/
def finish (a : Word) : Half := ~~~ fold16 a

/-- `feed_byte(b)` (R101): the high byte of a new word when PHASE = 0, else the low byte of the open word. -/
def State.feedByte (s : State) (b : Byte) : State :=
  if s.phase then s.setStream (accAdd s.acc (be16 0 b)) false
  else s.setStream (accAdd s.acc (be16 b 0)) true

/-- `feed_bytes(s)` (R101). -/
def State.feedBytes (s : State) : List Byte → State
  | [] => s
  | b :: bs => State.feedBytes (s.feedByte b) bs

end Sys2Proof.Machine
end

