-- ==== Sys2Proof/Machine/Engine.lean ====
section
/-! DEFINITION. The checksum engine's commands: NOP, CLR, ADD, FEED, FIN (spec 40_checksum_engine.md). -/

namespace Sys2Proof.Machine

/-- NOP (R107): no effect. -/
def execNop (s : State) : Host.Outcome State Fault Refusal := .next s

/-- CLR (R105): ACC and PHASE become 0. -/
def execClr (s : State) : Host.Outcome State Fault Refusal := .next (s.setStream 0 false)

/-- ADD (R106): streams BUF[ADDR .. ADDR+LEN), or raises CmdError(RANGE). -/
def execAdd (s : State) : Host.Outcome State Fault Refusal :=
  if s.rangeOk then .next (s.feedBytes s.operandBytes) else .next (s.raise .range)

/-- FEED (R108): streams the low N bytes of DATA. With an N that R83 forbids it raises CmdError(CMD) (R176 item 3), as
decoding such a word does. -/
def execFeed (n : BitVec 3) (s : State) : Host.Outcome State Fault Refusal :=
  if feedCountLegal n then .next (s.feedBytes (feedOperand n.toNat s.data)) else .next (s.raise .cmd)

/-- FIN (R110): RESULT becomes the checksum of ACC; ACC and PHASE stay. -/
def execFin (s : State) : Host.Outcome State Fault Refusal := .next (s.setResult (finish s.acc))

end Sys2Proof.Machine
end

