-- ==== Sys2Proof/Machine/PseudoHeader.lean ====
section
/-! DEFINITION. The pseudo-header builder's commands: PHB, PHA (spec 41_pseudo_header.md). -/

namespace Sys2Proof.Machine

/-- PHB (R132): PHDR0 to PHDR2 from PH_SRC, PH_DST and PH_LEN. -/
def execPhb (s : State) : Host.Outcome State Fault Refusal := .next (s.setPhdr s.phSrc s.phDst (phdr2Of s.phLen))

/-- PHA (R133): streams the twelve bytes of the pseudo-header. -/
def execPha (s : State) : Host.Outcome State Fault Refusal := .next (s.feedBytes s.phBytes)

end Sys2Proof.Machine
end

