-- ==== Sys2Proof/Machine/Flags.lean ====
section
/-! DEFINITION. The status registers as words: STATUS (10_state.md R27) and V_STATUS (R40). No command reads them (R49). -/

namespace Sys2Proof.Machine

/-- STATUS: ERR_CMD in bit 0, ERR_RANGE in bit 1, PHASE in bit 8; every other bit reads 0 (R27). -/
def State.statusWord (s : State) : Word :=
  BitVec.ofNat 32 (s.errCmd.toNat + 2 * s.errRange.toNat + 256 * s.phase.toNat)

/-- V_STATUS.OUTCOME (R40). -/
def Verdict.outcomeCode : Verdict → Nat
  | .noneYet => 0
  | .matched => 1
  | .mismatched => 2
  | .parseFail _ => 3

/-- The codes of PF_REASON (R40, 42_validator.md R150). -/
def ParseReason.code : ParseReason → Nat
  | .shortFrame => 1
  | .totlenGtFrame => 2
  | .ihlLt20 => 3
  | .segShort => 4

/-- V_STATUS.PF_REASON (R40): 0 when the outcome is not PARSE_FAIL. -/
def Verdict.reasonCode : Verdict → Nat
  | .noneYet => 0
  | .matched => 0
  | .mismatched => 0
  | .parseFail r => r.code

/-- V_STATUS: OUTCOME in [1:0], PF_REASON in [7:4]; every other bit reads 0 (R40). -/
def Verdict.word (v : Verdict) : Word := BitVec.ofNat 32 (v.outcomeCode + 16 * v.reasonCode)

/-- The verdict of a comparison (42_validator.md R151). -/
def compareVerdict (cmp emb : Half) : Verdict := if cmp = emb then .matched else .mismatched

end Sys2Proof.Machine
end

