-- ==== Sys2Proof/Machine/Validator.lean ====
section
/-! DEFINITION. The frame validator's command: VAL (spec 42_validator.md). -/

namespace Sys2Proof.Machine

/-- `parse_fail(r)` (R150): only the V_ registers change. -/
def State.parseFail (s : State) (r : ParseReason) : State := s.setVerdict (.parseFail r) 0 0 0 0

/-- The steps of R140 after the parse checks (R147 to R151), on the frame `f`. -/
def State.validateFrame (s : State) (f : List Byte) : State :=
  let seg := frameSegment f
  let emb := segmentChecksum seg
  let built := s.setPhdr (frameSource f) (frameDestination f) (phdr2Of (BitVec.ofInt 16 (frameSeglen f)))
  let summed := ((built.setStream 0 false).feedBytes built.phBytes).feedBytes (zeroedSegment seg)
  let cmp := finish summed.acc
  (summed.setResult cmp).setVerdict (compareVerdict cmp emb) (BitVec.ofNat 6 (frameIhl f)) (frameTotlen f) emb cmp

/-- VAL on the frame `f` (R140 past its range check). -/
def State.validate (s : State) (f : List Byte) : State :=
  match parseCheck f with
  | some r => s.parseFail r
  | none => s.validateFrame f

/-- VAL (R140): validates the frame BUF[ADDR .. ADDR+LEN), or raises CmdError(RANGE) (R141). -/
def execVal (s : State) : Host.Outcome State Fault Refusal :=
  if s.rangeOk then .next (s.validate s.operandBytes) else .next (s.raise .range)

end Sys2Proof.Machine
end

