-- ==== Sys2Proof/Machine/Dispatch.lean ====
section
/-! DEFINITION. `exec`: executing a command (spec 00_scope.md R10), one arm per constructor of Instr. -/

namespace Sys2Proof.Machine

def exec (i : Instr) (s : State) : Host.Outcome State Fault Refusal :=
  match i with
  | .nop => Sys2Proof.Machine.execNop s
  | .clr => Sys2Proof.Machine.execClr s
  | .add => Sys2Proof.Machine.execAdd s
  | .feed n => Sys2Proof.Machine.execFeed n s
  | .fin => Sys2Proof.Machine.execFin s
  | .phb => Sys2Proof.Machine.execPhb s
  | .pha => Sys2Proof.Machine.execPha s
  | .val => Sys2Proof.Machine.execVal s

end Sys2Proof.Machine
end

