-- ==== Sys2Proof/Machine/Registers.lean ====
section
/-! DEFINITION. The register window: the slots, the access classes and what a read or a write of each register does
(spec 10_state.md R22 to R44). -/

namespace Sys2Proof.Machine

/-- The slot of each register (R22). -/
def RegName.offset : RegName → Nat
  | .ID => 0x00
  | .BUFSIZE => 0x04
  | .CMD => 0x08
  | .STATUS => 0x0C
  | .ADDR => 0x10
  | .LEN => 0x14
  | .DATA => 0x18
  | .ACC => 0x1C
  | .RESULT => 0x20
  | .PH_SRC => 0x24
  | .PH_DST => 0x28
  | .PH_LEN => 0x2C
  | .PHDR0 => 0x30
  | .PHDR1 => 0x34
  | .PHDR2 => 0x38
  | .V_STATUS => 0x40
  | .V_IHL => 0x44
  | .V_TOTLEN => 0x48
  | .V_EMB => 0x4C
  | .V_CMP => 0x50

/-- The register of an aligned offset (R22); the slots 0x3C and 0x54 to 0xFC are reserved. -/
def registerAt (off : Nat) : Option RegName :=
  match off with
  | 0x00 => some .ID
  | 0x04 => some .BUFSIZE
  | 0x08 => some .CMD
  | 0x0C => some .STATUS
  | 0x10 => some .ADDR
  | 0x14 => some .LEN
  | 0x18 => some .DATA
  | 0x1C => some .ACC
  | 0x20 => some .RESULT
  | 0x24 => some .PH_SRC
  | 0x28 => some .PH_DST
  | 0x2C => some .PH_LEN
  | 0x30 => some .PHDR0
  | 0x34 => some .PHDR1
  | 0x38 => some .PHDR2
  | 0x40 => some .V_STATUS
  | 0x44 => some .V_IHL
  | 0x48 => some .V_TOTLEN
  | 0x4C => some .V_EMB
  | 0x50 => some .V_CMP
  | _ => none

/-- The value a 4-byte read of a register returns (R23 to R44). ID and BUFSIZE are constants, CMD reads 0, and a field that is
reserved reads 0. -/
def State.readReg (s : State) : RegName → Word
  | .ID => Config.identification
  | .BUFSIZE => BitVec.ofNat 32 s.bufBytes
  | .CMD => 0
  | .STATUS => s.statusWord
  | .ADDR => s.addr
  | .LEN => s.len
  | .DATA => s.data
  | .ACC => s.acc
  | .RESULT => s.result.setWidth 32
  | .PH_SRC => s.phSrc
  | .PH_DST => s.phDst
  | .PH_LEN => s.phLen.setWidth 32
  | .PHDR0 => s.phdr0
  | .PHDR1 => s.phdr1
  | .PHDR2 => s.phdr2
  | .V_STATUS => s.verdict.word
  | .V_IHL => s.vIhl.setWidth 32
  | .V_TOTLEN => s.vTotlen.setWidth 32
  | .V_EMB => s.vEmb.setWidth 32
  | .V_CMP => s.vCmp.setWidth 32

/-- A write to an RW register (R23). PH_LEN stores the low half of the data (R35). -/
def State.writeOperand (s : State) (r : OperandReg) (v : Word) : State :=
  match r with
  | .ADDR => { s with addr := v }
  | .LEN => { s with len := v }
  | .DATA => { s with data := v }
  | .PH_SRC => { s with phSrc := v }
  | .PH_DST => { s with phDst := v }
  | .PH_LEN => { s with phLen := v.setWidth 16 }

/-- What a 4-byte write of `v` to a register is (R23): the command, the STATUS write, the store to an RW register, or nothing
for a read-only register. -/
def RegName.writeAccess (v : Word) : RegName → Option Access
  | .ID => none
  | .BUFSIZE => none
  | .CMD => some (.command v)
  | .STATUS => some (.clearStatus v)
  | .ADDR => some (.writeOperand .ADDR v)
  | .LEN => some (.writeOperand .LEN v)
  | .DATA => some (.writeOperand .DATA v)
  | .ACC => none
  | .RESULT => none
  | .PH_SRC => some (.writeOperand .PH_SRC v)
  | .PH_DST => some (.writeOperand .PH_DST v)
  | .PH_LEN => some (.writeOperand .PH_LEN v)
  | .PHDR0 => none
  | .PHDR1 => none
  | .PHDR2 => none
  | .V_STATUS => none
  | .V_IHL => none
  | .V_TOTLEN => none
  | .V_EMB => none
  | .V_CMP => none

end Sys2Proof.Machine
end

