-- ==== Sys2Proof/Machine/Bus.lean ====
section
/-! DEFINITION. The port: which transactions are taken, what each one does, and how an event is taken
(spec 20_memory.md, 60_exceptions.md R170 to R178, 70_reset_and_hazards.md R190, R191). -/

namespace Sys2Proof.Machine

/-- The aperture offset of a host address (20_memory.md R60), none outside the aperture. -/
def apertureOffset (hostAddress : Nat) : Option (BitVec 17) :=
  if Config.blockBase ≤ hostAddress ∧ hostAddress < Config.blockBase + 0x20000 then
    some (BitVec.ofNat 17 (hostAddress - Config.blockBase))
  else none

/-- The bus-error causes 4 to 6 of R171 for a transaction of `n` bytes in the register window, or what it does. -/
def routeRegister (t : Transaction) (n : Nat) : Except Fault Access :=
  if n ≠ 4 then .error .regWidth
  else
    match registerAt t.off.toNat with
    | none => .error .reservedSlot
    | some r =>
      if t.write then
        match r.writeAccess t.wdata with
        | none => .error .roWrite
        | some x => .ok x
      else .ok (.readReg r)

/-- The bus-error cause 7 of R171 for a transaction of `n` bytes at buffer offset `a`, or what it does (R65, R66). -/
def routeBuffer (bufBytes : Nat) (t : Transaction) (n a : Nat) : Except Fault Access :=
  if bufBytes ≤ a then .error .bufRange
  else if t.write then .ok (.writeBuffer a (laneBytes n t.wdata))
  else .ok (.readBuffer a n)

/-- The first bus-error cause that holds, in the order of R171, or what the taken transaction does (R63, R66). -/
def route (bufBytes : Nat) (t : Transaction) : Except Fault Access :=
  match sizeBytes t.size with
  | none => .error .badSize
  | some n =>
    if 0x100 ≤ t.off.toNat ∧ t.off.toNat ≤ 0xFFFF then .error .reservedRegion
    else if t.off.toNat % n ≠ 0 then .error .misaligned
    else if t.off.toNat < 0x100 then routeRegister t n
    else routeBuffer bufBytes t n (t.off.toNat - 0x10000)

/-- Executing a command word (30_encoding.md R81): an illegal word raises CmdError(CMD). -/
def runCommand (w : Word) (s : State) : Host.Outcome State Fault Refusal :=
  match decode w with
  | .ok i => exec i s
  | .error _ => .next (s.raise .cmd)

/-- The response is returned once the event's own effect is complete (20_memory.md R71). -/
def answer (r : Response) : Host.Outcome State Fault Refusal → Host.Outcome State Fault Refusal
  | .next s => .next (s.respond r)
  | .fault f => .fault f
  | .refused f => .refused f

/-- A taken transaction: its effect (R76) and its OKAY response (R62). -/
def perform (s : State) : Access → Host.Outcome State Fault Refusal
  | .readReg r => .next (s.respond (.okay (s.readReg r)))
  | .command w => answer (.okay 0) (runCommand w s)
  | .clearStatus w => .next ((s.clearErrors w).respond (.okay 0))
  | .writeOperand r v => .next ((s.writeOperand r v).respond (.okay 0))
  | .readBuffer a n => .next (s.respond (.okay (transferValue (s.memRead a n))))
  | .writeBuffer a v => .next ((s.memWrite a v).respond (.okay 0))

/-- A transaction: ERR and no state changed (R170), or the access it is. -/
def transact (t : Transaction) (s : State) : Host.Outcome State Fault Refusal :=
  match route s.bufBytes t with
  | .error f => .next (s.respond (.err f))
  | .ok x => perform s x

/-- One port event, taken whole (00_scope.md R6, 20_memory.md R70). A transaction that a reset cuts gets no response and leaves
no effect (R191). -/
def takeEvent (s : State) : PortEvent → Host.Outcome State Fault Refusal
  | .access t => transact t s
  | .reset _ => .next s.afterReset

/-- The next event at the port, or an idle block, which keeps all its state (60_exceptions.md R187). -/
def advance (s : State) : Host.Outcome State Fault Refusal :=
  match s.inbox with
  | [] => .next s
  | ev :: rest => takeEvent (s.setInbox rest) ev

/-- The 4-byte write of a word to CMD (10_state.md R26). -/
def commandWrite (w : Word) : PortEvent := .access ⟨true, 0x8, 2, w⟩

end Sys2Proof.Machine
end

