-- ==== Sys2Proof/Machine/Step.lean ====
section
/-! DEFINITION. `step`: the block takes the next event at its port (spec 00_scope.md R6). -/

namespace Sys2Proof.Machine

/-- One step: one port event, taken whole (R6, R70). The block fetches no commands from memory (R74): its next command is the
data of the next CMD write (R21). -/
def step (s : State) : Host.Outcome State Fault Refusal := advance s

/-- `s` with the CMD write of the word as the next port event, ahead of those that wait (log entry 8). -/
def State.withFetchWord (s : State) (nbits w : Nat) : State := s.setInbox (commandWrite (tableWord nbits w) :: s.inbox)

end Sys2Proof.Machine
end

