-- ==== Sys2Proof/Machine/Assembler.lean ====
section
/-! DEFINITION. The host's notation: the lines and pseudo-instructions of spec 30_encoding.md R88 and R89, as the transactions
they stand for. -/

namespace Sys2Proof.Machine

/-- `Write(off(REG), 4, V)` (R88). -/
def writeReg (r : RegName) (v : Word) : Transaction := ⟨true, BitVec.ofNat 17 r.offset, 2, v⟩

/-- `Read(off(REG), 4)` (R88). -/
def readRegAt (r : RegName) : Transaction := ⟨false, BitVec.ofNat 17 r.offset, 2, 0⟩

/-- A write to the buffer offset `a` with a size code (R88). -/
def writeBuf (code : BitVec 2) (a : Nat) (v : Word) : Transaction := ⟨true, BitVec.ofNat 17 (0x10000 + a), code, v⟩

/-- A read of the buffer offset `a` with a size code (R88). -/
def readBuf (code : BitVec 2) (a : Nat) : Transaction := ⟨false, BitVec.ofNat 17 (0x10000 + a), code, 0⟩

/-- `w CMD, word` with the word of R82. -/
def issue (i : Instr) : Transaction := writeReg .CMD (encode i)

/-- `load A, hex"..."` without merging (R89): one byte write for each byte. -/
def loadBytes : Nat → List Byte → List Transaction
  | _, [] => []
  | a, b :: bs => writeBuf 0 a (b.setWidth 32) :: loadBytes (a + 1) bs

/-- `load A, hex"..."` with the merging R89 allows: four bytes at a 4-aligned offset become one word write. -/
def loadMerged : Nat → List Byte → List Transaction
  | a, b0 :: b1 :: b2 :: b3 :: bs =>
    if a % 4 = 0 then writeBuf 2 a (b3 ++ b2 ++ b1 ++ b0) :: loadMerged (a + 4) bs
    else writeBuf 0 a (b0.setWidth 32) :: loadMerged (a + 1) (b1 :: b2 :: b3 :: bs)
  | a, b :: bs => writeBuf 0 a (b.setWidth 32) :: loadMerged (a + 1) bs
  | _, [] => []

/-- A line of a host program (R88, R89). -/
inductive Line where
  | wreg (r : RegName) (v : Word)
  | rreg (r : RegName)
  | wb (a : Nat) (v : Word)
  | wh (a : Nat) (v : Word)
  | ww (a : Nat) (v : Word)
  | rb (a : Nat)
  | rh (a : Nat)
  | rw (a : Nat)
  | command (i : Instr)
  | load (a : Nat) (bytes : List Byte)
  | sum (a l : Word)
  | feedw (v : Word)
  | csum (a l : Word)
  | ph (source destination tcpLen : Word)
  | validate (a l : Word)
  | clrerr
  deriving DecidableEq, Repr

/-- `sum A, L` (R89). -/
def expandSum (a l : Word) : List Transaction := [writeReg .ADDR a, writeReg .LEN l, issue .add]

/-- The transactions a line stands for, in order (R88, R89). -/
def Line.expand : Line → List Transaction
  | .wreg r v => [writeReg r v]
  | .rreg r => [readRegAt r]
  | .wb a v => [writeBuf 0 a v]
  | .wh a v => [writeBuf 1 a v]
  | .ww a v => [writeBuf 2 a v]
  | .rb a => [readBuf 0 a]
  | .rh a => [readBuf 1 a]
  | .rw a => [readBuf 2 a]
  | .command i => [issue i]
  | .load a bytes => loadBytes a bytes
  | .sum a l => expandSum a l
  | .feedw v => [writeReg .DATA v, issue (.feed 2)]
  | .csum a l => issue .clr :: expandSum a l ++ [issue .fin]
  | .ph s d t => [writeReg .PH_SRC s, writeReg .PH_DST d, writeReg .PH_LEN t, issue .phb]
  | .validate a l => [writeReg .ADDR a, writeReg .LEN l, issue .val]
  | .clrerr => [writeReg .STATUS 0x3]

/-- A host program presented at the port, in program order (70_reset_and_hazards.md R195). -/
def State.present (s : State) (program : List Line) : State :=
  s.setInbox (s.inbox ++ (program.flatMap Line.expand).map .access)

end Sys2Proof.Machine
end

