-- ==== Sys2Proof/Machine/Reference.lean ====
section
/-! DEFINITION. The source's algorithm on unbounded integers, as spec 40_checksum_engine.md R100 and R109 state it: what the
claims hold the engine against. No meaning uses it. -/

namespace Sys2Proof.Machine

/-- "if length is odd, a single zero byte is conceptually appended" (R101, R109). -/
def paddedBytes (s : List Byte) : List Byte := if s.length % 2 = 1 then s ++ [0] else s

/-- The sum of the big-endian words of an even-length sequence. -/
def evenWordSum : List Byte → Nat
  | h :: l :: rest => h.toNat * 256 + l.toNat + evenWordSum rest
  | _ => 0

/-- S of R109: the unbounded word sum of a sequence. -/
def wordSum (s : List Byte) : Nat := evenWordSum (paddedBytes s)

/-- "repeatedly adding the high 16 bits into the low 16 bits until the high 16 bits are zero" (R100). `fuel` bounds the loop. -/
def foldCarries : (fuel s : Nat) → Nat
  | 0, s => s
  | fuel + 1, s => if s / 2 ^ 16 = 0 then s else foldCarries fuel (s / 2 ^ 16 + s % 2 ^ 16)

/-- `compute(s)` (R109). The loop lowers S at every turn, so S turns are enough. -/
def compute (s : List Byte) : Half := ~~~ BitVec.ofNat 16 (foldCarries (wordSum s) (wordSum s))

/-- `feed_byte` with `acc_add` on numbers (R101, R102): ACC and PHASE after one more byte. -/
def referenceFeed (x : Nat × Bool) (b : Byte) : Nat × Bool :=
  let t := x.1 + (if x.2 then b.toNat else b.toNat * 256)
  (t % 2 ^ 32 + t / 2 ^ 32, !x.2)

/-- `feed_bytes` on numbers (R101). -/
def referenceStream (x : Nat × Bool) (s : List Byte) : Nat × Bool := s.foldl referenceFeed x

/-- The twelve bytes of a TCP pseudo-header (41_pseudo_header.md R130). -/
def pseudoHeader (source destination : List Byte) (tcpLen : Nat) : List Byte :=
  source ++ destination ++ [0x00, 0x06, BitVec.ofNat 8 (tcpLen / 256), BitVec.ofNat 8 tcpLen]

/-! ## A frame as the source reads it (42_validator.md R143 to R149): a function from frame offsets to bytes -/

/-- "low 4 bits of byte 14 × 4" (R143). -/
def headerLength (f : Nat → Byte) : Nat := (f 14).toNat % 16 * 4

/-- "total length from bytes 16–17 as big-endian 16-bit" (R143). -/
def totalLength (f : Nat → Byte) : Nat := (f 16).toNat * 256 + (f 17).toNat

/-- The parse checks a frame of `n` bytes passes (R142, R144, R145, R146). -/
abbrev ParsePasses (f : Nat → Byte) (n : Nat) : Prop :=
  34 ≤ n ∧ 14 + totalLength f ≤ n ∧ 20 ≤ headerLength f ∧ headerLength f + 18 ≤ totalLength f

/-- "TCP length = `total_length - ip_header_length`" (R149), of a frame that passes the checks. -/
def segmentLength (f : Nat → Byte) : Nat := totalLength f - headerLength f

/-- "the embedded checksum from segment bytes 16–17 (big-endian 16-bit)" (R148). -/
def embeddedChecksum (f : Nat → Byte) : Half :=
  BitVec.ofNat 16 ((f (14 + headerLength f + 16)).toNat * 256 + (f (14 + headerLength f + 17)).toNat)

/-- "pseudo-header ‖ zeroed-segment" (R151): the stream a validation sums. -/
def validationStream (f : Nat → Byte) : List Byte :=
  pseudoHeader [f 26, f 27, f 28, f 29] [f 30, f 31, f 32, f 33] (segmentLength f) ++
    (List.range (segmentLength f)).map fun k => if k = 16 ∨ k = 17 then 0 else f (14 + headerLength f + k)

/-- Four bytes, the first in bits [31:24] (R149), on numbers. -/
def bigEndian32 (b0 b1 b2 b3 : Byte) : Word :=
  BitVec.ofNat 32 (b0.toNat * 2 ^ 24 + b1.toNat * 2 ^ 16 + b2.toNat * 2 ^ 8 + b3.toNat)

end Sys2Proof.Machine
end

