-- ==== Sys2Proof/Safety.lean ====
section
/-! DEFINITION. What counts as a safe run, in the terms the claims use: the invariant of the block, the absence of errors, and
the stream the accumulator holds. -/

namespace Sys2Proof.Machine

/-- No transaction so far was answered ERR (93_implementation_defined.md I5, I6). -/
def State.noBusError (s : State) : Bool := s.outbox.all fun r => !r.tErr

/-- STATUS[1:0] = 0 (93_implementation_defined.md I7, 70_reset_and_hazards.md R197). -/
def State.noCommandError (s : State) : Bool := !s.errCmd && !s.errRange

/-- Every buffer byte that ADD or VAL would read has been written since reset (70_reset_and_hazards.md R193 step 2). -/
def State.operandWritten (s : State) : Bool :=
  (List.range s.len.toNat).all fun i => (s.buf.find? (s.addr.toNat + i)).isSome

/-- The four V_ value registers are 0. -/
abbrev State.noVerdictValues (s : State) : Prop := s.vIhl = 0 ∧ s.vTotlen = 0 ∧ s.vEmb = 0 ∧ s.vCmp = 0

/-- The header a completed VAL decoded (10_state.md R41, 42_validator.md R144 to R146), and the pseudo-header it left (R39). -/
abbrev State.decodedHeader (s : State) : Prop :=
  s.vIhl.toNat % 4 = 0 ∧ 20 ≤ s.vIhl.toNat ∧ s.vIhl.toNat ≤ 60 ∧ s.vIhl.toNat + 18 ≤ s.vTotlen.toNat ∧
    14 + s.vTotlen.toNat ≤ s.bufBytes ∧ s.phdr2.extractLsb' 16 16 = 0x0006

/-- What the V_ value registers hold for each outcome (10_state.md R40 to R44). -/
def State.verdictConsistent (s : State) : Prop :=
  match s.verdict with
  | .noneYet => s.noVerdictValues
  | .parseFail _ => s.noVerdictValues
  | .matched => s.decodedHeader ∧ s.vCmp = s.vEmb
  | .mismatched => s.decodedHeader ∧ s.vCmp ≠ s.vEmb

/-- PHDR0 to PHDR2 are all 0, or PHDR2 has the zero byte and the protocol number 6 (10_state.md R39, 70_reset_and_hazards.md
R203). -/
def State.phdrConsistent (s : State) : Prop :=
  (s.phdr0 = 0 ∧ s.phdr1 = 0 ∧ s.phdr2 = 0) ∨ s.phdr2.extractLsb' 16 16 = 0x0006

/-- The invariant of the block: a legal instance (R5), a buffer in canonical form inside its bounds (R46), and the result
registers as 10_state.md R39 to R44 say they read. -/
structure State.Inv (s : State) : Prop where
  legal : Config.LegalBufBytes s.bufBytes
  bufWf : s.buf.wf = true
  bufInside : s.buf.inside s.bufBytes = true
  verdict : s.verdictConsistent
  phdr : s.phdrConsistent

/-! ## The rules' own words, as the claims need them -/

/-- The range check of ADD and VAL (40_checksum_engine.md R104). -/
abbrev State.InRange (s : State) : Prop := s.addr.toNat + s.len.toNat ≤ s.bufBytes

/-- The frame VAL reads (42_validator.md R141): byte `i` is BUF[ADDR + i]. -/
def State.frameFn (s : State) (i : Nat) : Byte := s.byteAt (s.addr.toNat + i)

/-- A command word that raises CmdError(CMD): the four items of 60_exceptions.md R176. -/
abbrev IllegalCommand (w : Word) : Prop :=
  w.toNat / 2048 ≠ 0 ∨ 0x08 ≤ w.toNat % 256 ∨
    (w.toNat % 256 = 0x03 ∧ (w.toNat / 256 % 8 = 0 ∨ 5 ≤ w.toNat / 256 % 8)) ∨
    (w.toNat % 256 ≠ 0x03 ∧ w.toNat / 256 % 8 ≠ 0)

/-- The table of bus-error causes (60_exceptions.md R171): each row's condition and its cause. -/
def busErrorTable (bufBytes : Nat) (t : Transaction) : List (Bool × Fault) :=
  let off := t.off.toNat
  [(t.size == 3, .badSize),
   (decide (0x100 ≤ off ∧ off ≤ 0xFFFF), .reservedRegion),
   (decide (off % 2 ^ t.size.toNat ≠ 0), .misaligned),
   (decide (off < 0x100) && t.size != 2, .regWidth),
   (decide (off < 0x100 ∧ (off = 0x3C ∨ 0x54 ≤ off)), .reservedSlot),
   (t.write && [0x00, 0x04, 0x1C, 0x20, 0x30, 0x34, 0x38, 0x40, 0x44, 0x48, 0x4C, 0x50].contains off, .roWrite),
   (decide (0x10000 ≤ off ∧ bufBytes ≤ off - 0x10000), .bufRange)]

/-- "the first applicable row" (R171). -/
def firstBusError (bufBytes : Nat) (t : Transaction) : Option Fault :=
  ((busErrorTable bufBytes t).find? fun row => row.1).map fun row => row.2

/-- Commands one after the other, stopping at the first that answers no next state. -/
def execSeq : List Instr → State → Host.Outcome State Fault Refusal
  | [], s => .next s
  | i :: is, s =>
    match exec i s with
    | .next t => execSeq is t
    | .fault f => .fault f
    | .refused f => .refused f

/-- `k` steps, stopping where one answers no next state. -/
def run : Nat → State → Host.Outcome State Fault Refusal
  | 0, s => .next s
  | k + 1, s =>
    match step s with
    | .next t => run k t
    | .fault f => .fault f
    | .refused f => .refused f

/-- A presented transaction, as opposed to a reset. -/
def PortEvent.isAccess : PortEvent → Bool
  | .access _ => true
  | .reset _ => false

/-- The bytes a command adds to the stream in a state (30_encoding.md R84, 40_checksum_engine.md R114): ADD's range, FEED's
bytes, the pseudo-header. -/
def fedBytes (i : Instr) (s : State) : List Byte :=
  match i with
  | .nop => []
  | .clr => []
  | .add => if s.rangeOk then s.operandBytes else []
  | .feed n => if feedCountLegal n then feedOperand n.toNat s.data else []
  | .fin => []
  | .phb => []
  | .pha => s.phBytes
  | .val => []

/-- `StreamOf bs s`: the stream of `s` (40_checksum_engine.md R101, R109) is `bs`: it started where ACC and PHASE were 0, ADD,
FEED and PHA fed it, and everything between them left ACC and PHASE as they were. -/
inductive StreamOf : List Byte → State → Prop where
  /-- after reset or CLR -/
  | start (s : State) : s.acc = 0 → s.phase = false → StreamOf [] s
  /-- a command that feeds -/
  | fed (bs : List Byte) (s t : State) (i : Instr) :
      StreamOf bs s → (i = .add ∨ i = .pha ∨ ∃ n, i = .feed n) → exec i s = .next t → StreamOf (bs ++ fedBytes i s) t
  /-- anything that leaves ACC and PHASE -/
  | kept (bs : List Byte) (s t : State) : StreamOf bs s → t.acc = s.acc → t.phase = s.phase → StreamOf bs t

end Sys2Proof.Machine
end

