-- ==== Sys2Proof/Certificates/Slice0/Obligations.lean ====
section
/-! DEFINITION. The statements for the provers. Each docstring names the rule of spec/ it formalises. In all of them `inbox` and
`outbox` are the model's form of the two sides of the port (log entry 1), and a bus error is a next state (log entry 2). -/

open Sys2Proof Sys2Proof.Machine

/-! ## Encoding -/

/-- 30_encoding.md R80 to R85: a word decodes to a command exactly when the command is well-formed and the word is its encoding. -/
def Obligations.DecodeAcceptsExactlyEncodings : Prop :=
  ∀ (w : Word) (i : Instr), decode w = .ok i ↔ (WellFormed i ∧ encode i = w)

/-- R82: the legal command words and their commands are the eleven pairs of the table; every other word raises CmdError(CMD). -/
def Obligations.LegalWordsAreTheEleven : Prop :=
  let table : List (Word × Instr) :=
    [(0x00000000, .nop), (0x00000001, .clr), (0x00000002, .add), (0x00000103, .feed 1), (0x00000203, .feed 2),
     (0x00000303, .feed 3), (0x00000403, .feed 4), (0x00000004, .fin), (0x00000005, .phb), (0x00000006, .pha),
     (0x00000007, .val)]
  (∀ (w : Word) (i : Instr), decode w = .ok i ↔ (w, i) ∈ table) ∧
    ∀ (w : Word) (s : State), (∀ i, (w, i) ∉ table) → runCommand w s = .next { s with errCmd := true }

/-- Words written out from the opcode table (R82) decode to their commands, and four illegal ones are refused by name (R176). -/
def Obligations.SpecWordsDecode : Prop :=
  decode 0b00000000000000000000000000000000 = .ok .nop ∧ decode 0b00000000000000000000000000000010 = .ok .add ∧
    decode 0b00000000000000000000001100000011 = .ok (.feed 3) ∧ decode 0b00000000000000000000000000000101 = .ok .phb ∧
    decode 0b00000000000000000000000000000111 = .ok .val ∧ decode 0x80000001 = .error .reservedBits ∧
    decode 0x00000008 = .error .reservedOpcode ∧ decode 0x00000503 = .error .feedCount ∧
    decode 0x00000101 = .error .strayCount

/-- 60_exceptions.md R176, 30_encoding.md R85: CmdError(CMD) is raised by a CMD write of a word with one of the four defects, and
by no other; it sets STATUS.ERR_CMD, records nothing else, and the write is answered OKAY. -/
def Obligations.IllegalWordsRaiseCmdError : Prop :=
  ∀ (s : State) (w : Word) (rest : List PortEvent), s.inbox = commandWrite w :: rest →
    (IllegalCommand w →
      step s = .next { s with errCmd := true, inbox := rest, outbox := s.outbox ++ [.okay 0] }) ∧
    (¬ IllegalCommand w → ∃ t, step s = .next t ∧ t.errCmd = s.errCmd)

/-! ## The step -/

/-- 10_state.md R21, R26: the next command is the word of the next CMD write; a step runs it on the state with that event taken
from the port, and then returns OKAY with read data 0. `withFetchWord` is the model's own (log entry 8). -/
def Obligations.StepRunsTheDecodedCommand : Prop :=
  (∀ (s : State) (w : Word) (i : Instr) (rest : List PortEvent), s.inbox = commandWrite w :: rest → decode w = .ok i →
    step s = answer (.okay 0) (exec i (s.setInbox rest))) ∧
  (∀ (s : State) (i : Instr) (t : State), WellFormed i → exec i s = .next t →
    step (s.withFetchWord 32 (encode i).toNat) = .next (t.respond (.okay 0)))

/-- 60_exceptions.md R187: with nothing presented, the block keeps all state. That this is a step is the model's choice (log
entry 6). -/
def Obligations.IdleBlockKeepsItsState : Prop := ∀ s : State, s.inbox = [] → step s = .next s

/-- 20_memory.md R62, R70, 70_reset_and_hazards.md R191, R201: a step takes the first event that waits and leaves the others; a
transaction's one response is appended in that step, so responses come in the order of their transactions, and a reset gets
none. Every event completes, and every event that waits is taken. The two lists are the model's form of the port (log entry 1). -/
def Obligations.PortDrainsWithOneResponseEach : Prop :=
  (∀ (s : State) (ev : PortEvent) (rest : List PortEvent), s.inbox = ev :: rest →
    ∃ t : State, step s = .next t ∧ t.inbox = rest ∧
      match ev with
      | .access _ => ∃ r : Response, t.outbox = s.outbox ++ [r]
      | .reset _ => t.outbox = s.outbox) ∧
  ∀ s : State, ∃ t : State, run s.inbox.length s = .next t ∧ t.inbox = [] ∧
    ∃ rs : List Response, t.outbox = s.outbox ++ rs ∧ rs.length = s.inbox.countP PortEvent.isAccess

/-! ## The checksum engine -/

/-- 40_checksum_engine.md R107: NOP is the word 0 alone, and leaves every state as it was. -/
def Obligations.NopChangesNothing : Prop :=
  decode 0x00000000 = .ok .nop ∧
    (∀ w : Word, w.toNat % 256 = 0 → w ≠ 0 → ∀ s : State, runCommand w s = .next { s with errCmd := true }) ∧
    ∀ s : State, exec .nop s = .next s

/-- R105: CLR clears ACC and PHASE and changes nothing else, a pending odd byte included; a malformed word is not CLR. -/
def Obligations.ClrClearsTheStream : Prop :=
  decode 0x00000001 = .ok .clr ∧
    (∀ w : Word, w.toNat % 256 = 1 → w ≠ 1 → ∀ s : State, runCommand w s = .next { s with errCmd := true }) ∧
    ∀ s : State, exec .clr s = .next { s with acc := 0, phase := false }

/-- R106, with the range check of R104: ADD feeds BUF[ADDR .. ADDR+LEN) to ACC and PHASE byte by byte and changes nothing else;
out of range it sets only STATUS.ERR_RANGE. -/
def Obligations.AddStreamsTheRange : Prop :=
  decode 0x00000002 = .ok .add ∧ ∀ s : State,
    (s.InRange →
      let r := referenceStream (s.acc.toNat, s.phase) ((List.range s.len.toNat).map s.frameFn)
      exec .add s = .next { s with acc := BitVec.ofNat 32 r.1, phase := r.2 }) ∧
    (¬ s.InRange → exec .add s = .next { s with errRange := true })

/-- R108: FEED N feeds the low N bytes of DATA, most significant first, for N = 1 to 4. The last clause, for any other N, is the
model's choice (log entry 13, DESIGN CHOICE): no word decodes to such a term, and the model lets it raise CmdError(CMD) as the
illegal word does. -/
def Obligations.FeedStreamsDataBytes : Prop :=
  (decode 0x00000103 = .ok (.feed 1) ∧ decode 0x00000203 = .ok (.feed 2) ∧ decode 0x00000303 = .ok (.feed 3) ∧
    decode 0x00000403 = .ok (.feed 4)) ∧
  ∀ (s : State) (n : BitVec 3),
    (1 ≤ n.toNat ∧ n.toNat ≤ 4 →
      let bytes := (List.range n.toNat).map fun i => BitVec.ofNat 8 (s.data.toNat / 2 ^ (8 * (n.toNat - 1 - i)))
      let r := referenceStream (s.acc.toNat, s.phase) bytes
      exec (.feed n) s = .next { s with acc := BitVec.ofNat 32 r.1, phase := r.2 }) ∧
    (¬ (1 ≤ n.toNat ∧ n.toNat ≤ 4) → exec (.feed n) s = .next { s with errCmd := true })

/-- R110, R103: FIN writes RESULT = the complement of ACC folded twice, and changes nothing else. -/
def Obligations.FinWritesTheFoldedComplement : Prop :=
  ∀ s : State,
    let f1 := s.acc.toNat / 65536 + s.acc.toNat % 65536
    let f2 := f1 / 65536 + f1 % 65536
    exec .fin s = .next { s with result := BitVec.ofNat 16 (0xFFFF - f2) }

/-- R103: the two folds and their bounds, the same value as folding until the high half is zero, the residue modulo 0xFFFF, and
zero only for zero. -/
def Obligations.FoldKeepsTheResidue : Prop :=
  ∀ a : Word,
    let f1 := a.toNat / 65536 + a.toNat % 65536
    let f2 := f1 / 65536 + f1 % 65536
    f1 ≤ 0x1FFFE ∧ (f1 / 65536 = 1 → f1 % 65536 ≤ 0xFFFE) ∧ f2 ≤ 0xFFFF ∧ (fold16 a).toNat = f2 ∧
      (fold16 a).toNat = foldCarries a.toNat a.toNat ∧ (fold16 a).toNat % 0xFFFF = a.toNat % 0xFFFF ∧
      ((fold16 a).toNat = 0 ↔ a = 0)

/-- R102: the carry out of bit 31 comes back into bit 0, which keeps the residue modulo 0xFFFF and answers 0 only for 0 + 0. -/
def Obligations.AccAddCarriesAround : Prop :=
  ∀ (a : Word) (v : Half),
    (accAdd a v).toNat = (if a.toNat + v.toNat < 2 ^ 32 then a.toNat + v.toNat else a.toNat + v.toNat - 2 ^ 32 + 1) ∧
      (accAdd a v).toNat % 0xFFFF = (a.toNat + v.toNat) % 0xFFFF ∧ (accAdd a v = 0 ↔ a = 0 ∧ v = 0)

/-- R109: for a stream s, FIN writes RESULT = compute(s) and changes nothing else; PHASE = len(s) mod 2; ACC is the word sum
whenever that is below 2^32, is congruent to it modulo 0xFFFF, and is 0 only with it. -/
def Obligations.FinGivesComputeOfTheStream : Prop :=
  ∀ (bs : List Byte) (s : State), StreamOf bs s →
    exec .fin s = .next { s with result := compute bs } ∧ s.phase = decide (bs.length % 2 = 1) ∧
      (wordSum bs < 2 ^ 32 → s.acc.toNat = wordSum bs) ∧ s.acc.toNat % 0xFFFF = wordSum bs % 0xFFFF ∧
      (s.acc = 0 ↔ wordSum bs = 0)

/-- R114: a range added in two pieces, of any lengths, leaves ACC and PHASE as the range added at once. -/
def Obligations.AddInPiecesIsAddAtOnce : Prop :=
  ∀ (s : State) (a m n : Nat), a + m + n ≤ s.bufBytes → s.bufBytes ≤ 65536 →
    ∃ t1 t2 t : State,
      exec .add { s with addr := BitVec.ofNat 32 a, len := BitVec.ofNat 32 m } = .next t1 ∧
      exec .add { t1 with addr := BitVec.ofNat 32 (a + m), len := BitVec.ofNat 32 n } = .next t2 ∧
      exec .add { s with addr := BitVec.ofNat 32 a, len := BitVec.ofNat 32 (m + n) } = .next t ∧
      t2.acc = t.acc ∧ t2.phase = t.phase

/-- R114: ACC and PHASE depend on the stream alone, however ADD, FEED and PHA cut it into commands, and FIN, NOP and PHB do not
break it. -/
def Obligations.StreamsConcatenate : Prop :=
  (∀ (bs : List Byte) (s s' : State), StreamOf bs s → StreamOf bs s' → s.acc = s'.acc ∧ s.phase = s'.phase) ∧
    ∀ (bs : List Byte) (s : State) (i : Instr), StreamOf bs s → i = .fin ∨ i = .nop ∨ i = .phb →
      ∃ t, exec i s = .next t ∧ StreamOf bs t

/-- R111 items 1 to 3: the empty stream gives 0xFFFF, explicit padding of an odd stream and a zero word after an even one
change nothing. -/
def Obligations.PaddingKeepsTheChecksum : Prop :=
  (∀ s t : State, StreamOf [] s → exec .fin s = .next t → t.result = 0xFFFF) ∧
    (∀ (bs : List Byte) (s s' t t' : State), bs.length % 2 = 1 → StreamOf bs s → StreamOf (bs ++ [0]) s' →
      exec .fin s = .next t → exec .fin s' = .next t' → t.result = t'.result) ∧
    (∀ (bs : List Byte) (s s' t t' : State), bs.length % 2 = 0 → StreamOf bs s → StreamOf (bs ++ [0, 0]) s' →
      exec .fin s = .next t → exec .fin s' = .next t' → t.result = t'.result)

/-- R111 item 4: with the checksum of a stream put at an even position that was [0, 0], the new stream's checksum is 0. -/
def Obligations.ChecksumVerifiesToZero : Prop :=
  ∀ (xs ys : List Byte) (s s' t t' : State), xs.length % 2 = 0 → StreamOf (xs ++ [0, 0] ++ ys) s → exec .fin s = .next t →
    StreamOf (xs ++ [BitVec.ofNat 8 (t.result.toNat / 256), BitVec.ofNat 8 (t.result.toNat % 256)] ++ ys) s' →
    exec .fin s' = .next t' → t'.result = 0

/-- R111 item 5: the order of the words does not matter, and swapping the bytes of every word swaps the bytes of the result. -/
def Obligations.WordOrderAndByteSwap : Prop :=
  ∀ (ws ws' : List (Byte × Byte)) (s s' s'' t t' t'' : State), ws.Perm ws' →
    StreamOf (ws.flatMap fun w => [w.1, w.2]) s → StreamOf (ws'.flatMap fun w => [w.1, w.2]) s' →
    StreamOf (ws.flatMap fun w => [w.2, w.1]) s'' →
    exec .fin s = .next t → exec .fin s' = .next t' → exec .fin s'' = .next t'' →
    t'.result = t.result ∧ t''.result.toNat = t.result.toNat % 256 * 256 + t.result.toNat / 256

/-! ## The pseudo-header builder -/

/-- 41_pseudo_header.md R132: PHB writes PHDR0 = PH_SRC, PHDR1 = PH_DST, PHDR2 = 0x00060000 + PH_LEN, and nothing else. -/
def Obligations.PhbBuildsThePseudoHeader : Prop :=
  decode 0x00000005 = .ok .phb ∧ ∀ s : State,
    exec .phb s = .next
      { s with phdr0 := s.phSrc, phdr1 := s.phDst, phdr2 := BitVec.ofNat 32 (0x00060000 + s.phLen.toNat) }

/-- R133, with the byte order of R131: PHA feeds the twelve bytes of PHDR0 to PHDR2, the byte in bits [31:24] of each first, and
changes nothing else. -/
def Obligations.PhaStreamsThePseudoHeader : Prop :=
  decode 0x00000006 = .ok .pha ∧ ∀ s : State,
    let bytes := (List.range 12).map fun j =>
      BitVec.ofNat 8 (([s.phdr0, s.phdr1, s.phdr2].getD (j / 4) 0).toNat / 2 ^ (24 - 8 * (j % 4)))
    let r := referenceStream (s.acc.toNat, s.phase) bytes
    exec .pha s = .next { s with acc := BitVec.ofNat 32 r.1, phase := r.2 }

/-- R133: with PHASE = 0 PHA adds six words and PHASE stays 0; with PHDR0 to PHDR2 all 0 (R203) it changes nothing, whatever
PHASE is. -/
def Obligations.PhaAddsSixWords : Prop :=
  ∀ s : State,
    (s.phase = false →
      ∃ t, exec .pha s = .next t ∧ t.phase = false ∧
        t.acc.toNat % 0xFFFF = (s.acc.toNat + s.phdr0.toNat / 65536 + s.phdr0.toNat % 65536 + s.phdr1.toNat / 65536 +
          s.phdr1.toNat % 65536 + s.phdr2.toNat / 65536 + s.phdr2.toNat % 65536) % 0xFFFF) ∧
    (s.phdr0 = 0 → s.phdr1 = 0 → s.phdr2 = 0 → exec .pha s = .next s)

/-- R134: clr ; phb ; pha ; add ; fin gives compute(pseudo-header ++ range), the pseudo-header of PH_SRC, PH_DST and PH_LEN. -/
def Obligations.BuilderComputesTheTcpChecksum : Prop :=
  ∀ s : State, s.InRange →
    let fourBytes (w : Word) : List Byte := (List.range 4).map fun i => BitVec.ofNat 8 (w.toNat / 2 ^ (24 - 8 * i))
    ∃ t, execSeq [.clr, .phb, .pha, .add, .fin] s = .next t ∧
      t.result = compute (pseudoHeader (fourBytes s.phSrc) (fourBytes s.phDst) s.phLen.toNat ++
        (List.range s.len.toNat).map s.frameFn)

/-! ## The validator -/

/-- 42_validator.md R141: a frame range that leaves the buffer raises CmdError(RANGE), and VAL changes nothing else. -/
def Obligations.ValOutOfRangeIsACommandError : Prop :=
  ∀ s : State, ¬ s.InRange → exec .val s = .next { s with errRange := true }

/-- R150 (with the checks of R142, R144, R145, R146 in the order of R178): the first check that fails names the reason; the V_
value registers become 0 and nothing else changes. V_STATUS then reads 3 + 16 times the reason code. -/
def Obligations.ValParseFailureReportsTheFirstReason : Prop :=
  ∀ s : State, s.InRange →
    let f := s.frameFn
    let n := s.len.toNat
    let failed (r : ParseReason) : State :=
      { s with verdict := .parseFail r, vIhl := 0, vTotlen := 0, vEmb := 0, vCmp := 0 }
    (n < 34 → exec .val s = .next (failed .shortFrame)) ∧
    (34 ≤ n → 14 + totalLength f > n → exec .val s = .next (failed .totlenGtFrame)) ∧
    (34 ≤ n → 14 + totalLength f ≤ n → headerLength f < 20 → exec .val s = .next (failed .ihlLt20)) ∧
    (34 ≤ n → 14 + totalLength f ≤ n → 20 ≤ headerLength f → (totalLength f : Int) - headerLength f < 18 →
      exec .val s = .next (failed .segShort)) ∧
    ((failed .shortFrame).readReg .V_STATUS = 0x13 ∧ (failed .totlenGtFrame).readReg .V_STATUS = 0x23 ∧
      (failed .ihlLt20).readReg .V_STATUS = 0x33 ∧ (failed .segShort).readReg .V_STATUS = 0x43)

/-- R143, R147 to R151: a frame that passes the checks. VAL sums pseudo-header ++ zeroed segment from zero, so RESULT and V_CMP
are the source's compute of that stream, ACC its word sum and PHASE its parity; PHDR0 to PHDR2 are the frame's pseudo-header;
V_STATUS says whether V_CMP equals the embedded checksum; nothing else changes. -/
def Obligations.ValComputesTheTcpChecksum : Prop :=
  ∀ s : State, s.InRange → ParsePasses s.frameFn s.len.toNat →
    let f := s.frameFn
    let stream := validationStream f
    let cmp := compute stream
    let done : State := { s with
      acc := BitVec.ofNat 32 (wordSum stream)
      phase := decide (segmentLength f % 2 = 1)
      result := cmp
      phdr0 := bigEndian32 (f 26) (f 27) (f 28) (f 29)
      phdr1 := bigEndian32 (f 30) (f 31) (f 32) (f 33)
      phdr2 := BitVec.ofNat 32 (0x00060000 + segmentLength f)
      verdict := if cmp = embeddedChecksum f then .matched else .mismatched
      vIhl := BitVec.ofNat 6 (headerLength f)
      vTotlen := BitVec.ofNat 16 (totalLength f)
      vEmb := embeddedChecksum f
      vCmp := cmp }
    exec .val s = .next done ∧ stream.length = 12 + segmentLength f ∧
      done.readReg .V_STATUS = if cmp = embeddedChecksum f then 0x1 else 0x2

/-- R154 items 1 and 2: two VALs of the same frame bytes, wherever the frames lie and whatever the states were before, give the
same V_ registers, and, unless the outcome is PARSE_FAIL, the same RESULT, ACC, PHASE and PHDR. -/
def Obligations.ValDependsOnTheFrameAlone : Prop :=
  ∀ s1 s2 : State, s1.InRange → s2.InRange → s1.len = s2.len → (∀ i < s1.len.toNat, s1.frameFn i = s2.frameFn i) →
    ∃ t1 t2 : State, exec .val s1 = .next t1 ∧ exec .val s2 = .next t2 ∧
      t1.verdict = t2.verdict ∧ t1.vIhl = t2.vIhl ∧ t1.vTotlen = t2.vTotlen ∧ t1.vEmb = t2.vEmb ∧ t1.vCmp = t2.vCmp ∧
      ((∀ r, t1.verdict ≠ .parseFail r) → t1.result = t2.result ∧ t1.acc = t2.acc ∧ t1.phase = t2.phase ∧
        t1.phdr0 = t2.phdr0 ∧ t1.phdr1 = t2.phdr1 ∧ t1.phdr2 = t2.phdr2)

/-- R152, R154 item 3: of a frame that passes the checks, VAL's results depend on the low nibble of byte 14, on bytes 16, 17 and
26 to 33, and on the segment's bytes, and on no other byte, trailing ones included. -/
def Obligations.ValIgnoresTheOtherFields : Prop :=
  ∀ s1 s2 : State, s1.InRange → s2.InRange → ParsePasses s1.frameFn s1.len.toNat →
    14 + totalLength s1.frameFn ≤ s2.len.toNat → 34 ≤ s2.len.toNat →
    (s1.frameFn 14).toNat % 16 = (s2.frameFn 14).toNat % 16 → s1.frameFn 16 = s2.frameFn 16 →
    s1.frameFn 17 = s2.frameFn 17 → (∀ i, 26 ≤ i → i < 34 → s1.frameFn i = s2.frameFn i) →
    (∀ i, 14 + headerLength s1.frameFn ≤ i → i < 14 + totalLength s1.frameFn → s1.frameFn i = s2.frameFn i) →
    ∃ t1 t2 : State, exec .val s1 = .next t1 ∧ exec .val s2 = .next t2 ∧
      t1.verdict = t2.verdict ∧ t1.vIhl = t2.vIhl ∧ t1.vTotlen = t2.vTotlen ∧ t1.vEmb = t2.vEmb ∧ t1.vCmp = t2.vCmp ∧
      t1.result = t2.result ∧ t1.acc = t2.acc ∧ t1.phase = t2.phase ∧
      t1.phdr0 = t2.phdr0 ∧ t1.phdr1 = t2.phdr1 ∧ t1.phdr2 = t2.phdr2

/-- R154 item 4: the checksum field decides V_EMB, and with it the verdict, and no other result; a frame with V_CMP's value written
there is a MATCH. -/
def Obligations.ValCorrectedFrameMatches : Prop :=
  ∀ s1 s2 t1 : State, s1.InRange → ParsePasses s1.frameFn s1.len.toNat → exec .val s1 = .next t1 →
    s2.addr = s1.addr → s2.len = s1.len → s2.bufBytes = s1.bufBytes →
    (∀ i, i ≠ 14 + headerLength s1.frameFn + 16 → i ≠ 14 + headerLength s1.frameFn + 17 →
      s2.frameFn i = s1.frameFn i) →
    let hi := s2.frameFn (14 + headerLength s1.frameFn + 16)
    let lo := s2.frameFn (14 + headerLength s1.frameFn + 17)
    ∃ t2 : State, exec .val s2 = .next t2 ∧ t2.vCmp = t1.vCmp ∧ t2.result = t1.result ∧ t2.acc = t1.acc ∧
      t2.phase = t1.phase ∧ t2.phdr0 = t1.phdr0 ∧ t2.phdr1 = t1.phdr1 ∧ t2.phdr2 = t1.phdr2 ∧ t2.vIhl = t1.vIhl ∧
      t2.vTotlen = t1.vTotlen ∧ t2.vEmb = BitVec.ofNat 16 (hi.toNat * 256 + lo.toNat) ∧
      t2.verdict = (if t2.vEmb = t1.vCmp then .matched else .mismatched) ∧
      (hi = BitVec.ofNat 8 (t1.vCmp.toNat / 256) → lo = BitVec.ofNat 8 (t1.vCmp.toNat % 256) →
        t2.verdict = .matched ∧ t2.vEmb = t1.vCmp)

/-! ## What commands write, read and raise -/

/-- 10_state.md R45: the cells of the table that say "-", for every command; no command writes an operand register, BUF, the
port or the instance; a CmdError writes one STATUS bit alone; CLR writes 0. -/
def Obligations.CommandsWriteOnlyTheirState : Prop :=
  ∀ (i : Instr) (s t : State), WellFormed i → exec i s = .next t →
    (i = .nop ∨ i = .fin ∨ i = .phb → t.acc = s.acc ∧ t.phase = s.phase) ∧
    (i = .clr → t.acc = 0 ∧ t.phase = false) ∧
    (i ≠ .fin → i ≠ .val → t.result = s.result) ∧
    (i ≠ .phb → i ≠ .val → t.phdr0 = s.phdr0 ∧ t.phdr1 = s.phdr1 ∧ t.phdr2 = s.phdr2) ∧
    (i ≠ .val → t.verdict = s.verdict ∧ t.vIhl = s.vIhl ∧ t.vTotlen = s.vTotlen ∧ t.vEmb = s.vEmb ∧ t.vCmp = s.vCmp) ∧
    (i = .val → (∃ r, t.verdict = .parseFail r) → t.acc = s.acc ∧ t.phase = s.phase ∧ t.result = s.result ∧
      t.phdr0 = s.phdr0 ∧ t.phdr1 = s.phdr1 ∧ t.phdr2 = s.phdr2) ∧
    (t.addr = s.addr ∧ t.len = s.len ∧ t.data = s.data ∧ t.phSrc = s.phSrc ∧ t.phDst = s.phDst ∧ t.phLen = s.phLen) ∧
    (∀ a, t.byteAt a = s.byteAt a) ∧ t.bufBytes = s.bufBytes ∧ t.epoch = s.epoch ∧ t.inbox = s.inbox ∧
    t.outbox = s.outbox ∧
    (i = .add ∨ i = .val → ¬ s.InRange → t = { s with errRange := true })

/-- 60_exceptions.md R174, R177: an illegal word raises CmdError(CMD); ADD and VAL raise CmdError(RANGE), exactly when ADDR + LEN
is past BUF_BYTES, and leave ADDR and LEN; no other command word raises anything. -/
def Obligations.CommandErrorsFollowTheTable : Prop :=
  ∀ (w : Word) (s : State), ∃ t, runCommand w s = .next t ∧ t.errCmd = (s.errCmd || decide (IllegalCommand w)) ∧
    t.errRange = (s.errRange || (decide (w = 0x00000002 ∨ w = 0x00000007) &&
      decide (s.bufBytes < s.addr.toNat + s.len.toNat))) ∧
    t.addr = s.addr ∧ t.len = s.len

/-- R49: no command reads the STATUS error bits or V_STATUS: changing them beforehand changes nothing else afterwards. -/
def Obligations.CommandsDoNotReadStatus : Prop :=
  ∀ (i : Instr) (s : State) (c r : Bool) (v : Verdict), ∃ t u : State,
    exec i s = .next t ∧ exec i { s with errCmd := c, errRange := r, verdict := v } = .next u ∧
      u = { t with errCmd := u.errCmd, errRange := u.errRange, verdict := u.verdict } ∧
      (i = .val → s.InRange → u.verdict = t.verdict)

/-! ## The port -/

/-- 60_exceptions.md R170, R171: the first row of the table that applies answers ERR, with read data 0 and no state changed;
when none applies the transaction is answered OKAY. The cause that `Response.err` records, and a next state in place of a stop, are
the model's choice (log entry 2, DESIGN CHOICE): the host does not see the cause, and the order of the rows is about the model's
record only. -/
def Obligations.BusErrorsFollowTheTable : Prop :=
  ∀ (s : State) (x : Transaction) (rest : List PortEvent), s.inbox = .access x :: rest →
    (∀ f, firstBusError s.bufBytes x = some f →
      step s = .next { s with inbox := rest, outbox := s.outbox ++ [.err f] } ∧
        (Response.err f).tErr = true ∧ (Response.err f).tRdata = 0) ∧
    (firstBusError s.bufBytes x = none →
      ∃ t v, step s = .next t ∧ t.outbox = s.outbox ++ [.okay v] ∧ (Response.okay v).tErr = false)

/-- 10_state.md R22 to R44: what a 4-byte read of each register returns; a read changes nothing. -/
def Obligations.ReadsReturnTheRegisters : Prop :=
  ∀ (s : State) (rest : List PortEvent) (d : Word) (off : Nat) (v : Word),
    (off, v) ∈ ([(0x00, 0x43530100), (0x04, BitVec.ofNat 32 s.bufBytes), (0x08, 0),
      (0x0C, BitVec.ofNat 32 (s.errCmd.toNat + 2 * s.errRange.toNat + 256 * s.phase.toNat)), (0x10, s.addr), (0x14, s.len),
      (0x18, s.data), (0x1C, s.acc), (0x20, BitVec.ofNat 32 s.result.toNat), (0x24, s.phSrc), (0x28, s.phDst),
      (0x2C, BitVec.ofNat 32 s.phLen.toNat), (0x30, s.phdr0), (0x34, s.phdr1), (0x38, s.phdr2),
      (0x40, match s.verdict with
        | .noneYet => 0x00 | .matched => 0x01 | .mismatched => 0x02 | .parseFail .shortFrame => 0x13
        | .parseFail .totlenGtFrame => 0x23 | .parseFail .ihlLt20 => 0x33 | .parseFail .segShort => 0x43),
      (0x44, BitVec.ofNat 32 s.vIhl.toNat), (0x48, BitVec.ofNat 32 s.vTotlen.toNat), (0x4C, BitVec.ofNat 32 s.vEmb.toNat),
      (0x50, BitVec.ofNat 32 s.vCmp.toNat)] : List (Nat × Word)) →
    s.inbox = .access ⟨false, BitVec.ofNat 17 off, 2, d⟩ :: rest →
    step s = .next { s with inbox := rest, outbox := s.outbox ++ [.okay v] }

/-- R23, R28 to R30, R33 to R35: a 4-byte write to an RW register stores the data (PH_LEN its low half) and changes nothing
else. -/
def Obligations.OperandWritesStoreTheData : Prop :=
  ∀ (s : State) (rest : List PortEvent) (v : Word),
    let taken : State := { s with inbox := rest, outbox := s.outbox ++ [.okay 0] }
    let writes (off : Nat) : Prop := s.inbox = .access ⟨true, BitVec.ofNat 17 off, 2, v⟩ :: rest
    (writes 0x10 → step s = .next { taken with addr := v }) ∧ (writes 0x14 → step s = .next { taken with len := v }) ∧
    (writes 0x18 → step s = .next { taken with data := v }) ∧ (writes 0x24 → step s = .next { taken with phSrc := v }) ∧
    (writes 0x28 → step s = .next { taken with phDst := v }) ∧
    (writes 0x2C → step s = .next { taken with phLen := BitVec.ofNat 16 v.toNat })

/-- R27: a STATUS write clears ERR_CMD where bit 0 of the data is 1 and ERR_RANGE where bit 1 is, and changes nothing else. -/
def Obligations.StatusWriteClearsOnOne : Prop :=
  ∀ (s : State) (rest : List PortEvent) (v : Word), s.inbox = .access ⟨true, 0x0C, 2, v⟩ :: rest →
    step s = .next { s with
      errCmd := s.errCmd && decide (v.toNat % 2 = 0)
      errRange := s.errRange && decide (v.toNat / 2 % 2 = 0)
      inbox := rest
      outbox := s.outbox ++ [.okay 0] }

/-- 20_memory.md R66: a taken buffer access of n = 1, 2 or 4 bytes reads or writes those n bytes in little-endian lanes, and has
no other effect. -/
def Obligations.BufferAccessMovesTheBytes : Prop :=
  ∀ (s : State) (rest : List PortEvent) (code : BitVec 2) (a : Nat) (d : Word),
    code ≠ 3 → a % 2 ^ code.toNat = 0 → a < s.bufBytes → s.bufBytes ≤ 65536 →
    let n := 2 ^ code.toNat
    (s.inbox = .access ⟨false, BitVec.ofNat 17 (0x10000 + a), code, d⟩ :: rest →
      step s = .next { s with
        inbox := rest
        outbox := s.outbox ++ [.okay (BitVec.ofNat 32 (∑ i ∈ Finset.range n, (s.byteAt (a + i)).toNat * 2 ^ (8 * i)))] }) ∧
    (s.inbox = .access ⟨true, BitVec.ofNat 17 (0x10000 + a), code, d⟩ :: rest →
      ∃ t : State, step s = .next t ∧
        t = { s with buf := t.buf, inbox := rest, outbox := s.outbox ++ [.okay 0] } ∧
        ∀ c, t.byteAt c = if a ≤ c ∧ c < a + n then BitVec.ofNat 8 (d.toNat / 2 ^ (8 * (c - a))) else s.byteAt c)

/-- R65: a buffer access that touches a byte at or past BUF_BYTES is answered ERR and changes nothing; on a legal instance an
aligned access lies either wholly outside the buffer or wholly inside, where it is taken. -/
def Obligations.BufferEdgeIsAnError : Prop :=
  ∀ (s : State) (x : Transaction) (rest : List PortEvent), Config.LegalBufBytes s.bufBytes →
    s.inbox = .access x :: rest → 0x10000 ≤ x.off.toNat → x.size ≠ 3 →
    let a := x.off.toNat - 0x10000
    let n := 2 ^ x.size.toNat
    ((∃ i < n, s.bufBytes ≤ a + i) →
      ∃ f, step s = .next { s with inbox := rest, outbox := s.outbox ++ [.err f] }) ∧
    (x.off.toNat % n = 0 → (∀ i < n, s.bufBytes ≤ a + i) ∨ (∀ i < n, a + i < s.bufBytes)) ∧
    (x.off.toNat % n = 0 → (∀ i < n, a + i < s.bufBytes) → ∃ t v, step s = .next t ∧ t.outbox = s.outbox ++ [.okay v])

/-- R76: a read changes nothing, and a second identical read gets the same response. -/
def Obligations.ReadsAreIdempotent : Prop :=
  ∀ (s : State) (x : Transaction) (rest : List PortEvent), x.write = false →
    s.inbox = .access x :: .access x :: rest →
    ∃ r : Response, run 2 s = .next { s with inbox := rest, outbox := s.outbox ++ [r, r] }

/-- R60: host address BLOCK_BASE + k is aperture offset k for k < 0x20000, and no other address is in the aperture. -/
def Obligations.ApertureHoldsTheOffsets : Prop :=
  ∀ h : Nat,
    (∀ k < 0x20000, h = Config.blockBase + k → apertureOffset h = some (BitVec.ofNat 17 k)) ∧
    ((∀ k < 0x20000, h ≠ Config.blockBase + k) → apertureOffset h = none)

/-- 30_encoding.md R89: `load A, bytes` leaves the bytes at A and nothing else changed in BUF, and merging its writes into word
writes makes no difference. -/
def Obligations.MergedLoadEqualsByteLoad : Prop :=
  ∀ (s : State) (a : Nat) (bs : List Byte), s.bufBytes ≤ 65536 → a + bs.length ≤ s.bufBytes →
    let present (xs : List Transaction) : State := s.setInbox (xs.map .access)
    ∃ t u : State,
      run (loadBytes a bs).length (present (loadBytes a bs)) = .next t ∧
      run (loadMerged a bs).length (present (loadMerged a bs)) = .next u ∧
      (∀ c, t.byteAt c = if a ≤ c ∧ c < a + bs.length then bs.getD (c - a) 0 else s.byteAt c) ∧
      ∀ c, u.byteAt c = t.byteAt c

/-- R89, 40_checksum_engine.md R109: a host that loads bytes into the buffer, runs `csum` over them and reads RESULT gets the
source's compute of those bytes as its last response. -/
def Obligations.HostProgramReadsTheChecksum : Prop :=
  ∀ (s : State) (a : Nat) (bs : List Byte), s.inbox = [] → s.bufBytes ≤ 65536 → a + bs.length ≤ s.bufBytes →
    ∃ t : State,
      run (bs.length + 6) (s.present [.load a bs, .csum (BitVec.ofNat 32 a) (BitVec.ofNat 32 bs.length), .rreg .RESULT]) =
        .next t ∧
      t.inbox = [] ∧ t.outbox.getLast? = some (.okay (BitVec.ofNat 32 (compute bs).toNat))

/-! ## Reset -/

/-- 70_reset_and_hazards.md R190, R191: what a reset leaves, whether or not it cuts a presented transaction, which gets no
response (R191): every register at its reset value, as after power-on, and no buffer byte kept. That BUF_BYTES, the waiting
events and the responses already returned stay is the model's (log entries 3 and 14, DEDUCED), and so is `epoch` (log entry 4). -/
def Obligations.ResetSetsEveryRegister : Prop :=
  ∀ (s : State) (cut : Option Transaction) (rest : List PortEvent), s.inbox = .reset cut :: rest →
    ∃ t : State, step s = .next t ∧ t.readReg .ID = 0x43530100 ∧ t.readReg .BUFSIZE = s.readReg .BUFSIZE ∧
      t.readReg .STATUS = 0 ∧ t.addr = 0 ∧ t.len = 0 ∧ t.data = 0 ∧ t.acc = 0 ∧ t.phase = false ∧ t.result = 0 ∧
      t.phSrc = 0 ∧ t.phDst = 0 ∧ t.phLen = 0 ∧ t.phdr0 = 0 ∧ t.phdr1 = 0 ∧ t.phdr2 = 0 ∧ t.readReg .V_STATUS = 0 ∧
      t.vIhl = 0 ∧ t.vTotlen = 0 ∧ t.vEmb = 0 ∧ t.vCmp = 0 ∧
      t = { State.reset with bufBytes := s.bufBytes, epoch := t.epoch, inbox := rest, outbox := s.outbox }

/-- 10_state.md R47, R190: after a reset every buffer byte is a draw of that reset, not of an earlier one, and reads of it give
that draw until the host writes it. The form of the draw is the model's (log entry 4). -/
def Obligations.ResetRedrawsTheBuffer : Prop :=
  ∀ (s : State) (cut : Option Transaction) (rest : List PortEvent), s.inbox = .reset cut :: rest →
    ∃ t : State, step s = .next t ∧ t.epoch ≠ s.epoch ∧ (∀ a, t.byteAt a = Config.freeByte t.epoch a) ∧
      ∀ (a : Nat) (bytes : List Byte) (c : Nat), c < a ∨ a + bytes.length ≤ c →
        (t.memWrite a bytes).byteAt c = Config.freeByte t.epoch c

/-- R192: a FIN straight after a reset gives RESULT = 0xFFFF. -/
def Obligations.FinAfterResetIsTheEmptyChecksum : Prop :=
  ∀ (s t : State) (cut : Option Transaction) (rest : List PortEvent), s.inbox = .reset cut :: rest → step s = .next t →
    exec .fin t = .next { t with result := 0xFFFF }

/-! ## The whole machine -/

/-- 10_state.md R47: no command and no event other than a host buffer write or a reset changes a BUF byte, and a buffer write
changes only the bytes it covers. -/
def Obligations.BufferChangesOnlyByHostWrites : Prop :=
  ∀ (s t : State) (a : Nat), (∀ cut rest, s.inbox ≠ .reset cut :: rest) → step s = .next t → t.byteAt a ≠ s.byteAt a →
    ∃ x rest, s.inbox = .access x :: rest ∧ x.write = true ∧ 0x10000 ≤ x.off.toNat ∧ x.off.toNat - 0x10000 ≤ a ∧
      a < x.off.toNat - 0x10000 + 2 ^ x.size.toNat

/-- R31, R32, R36 to R40: which command words can change ACC and PHASE, RESULT, PHDR0 to PHDR2 and the V_ registers in a step
that is not a reset; BUFSIZE never changes (R25). -/
def Obligations.ResultsChangeOnlyByTheirCommands : Prop :=
  ∀ (s t : State), (∀ cut rest, s.inbox ≠ .reset cut :: rest) → step s = .next t →
    let byWord (ws : List Word) : Prop := ∃ w ∈ ws, ∃ rest, s.inbox = commandWrite w :: rest
    (t.acc ≠ s.acc ∨ t.phase ≠ s.phase → byWord [0x001, 0x002, 0x103, 0x203, 0x303, 0x403, 0x006, 0x007]) ∧
    (t.result ≠ s.result → byWord [0x004, 0x007]) ∧
    (t.phdr0 ≠ s.phdr0 ∨ t.phdr1 ≠ s.phdr1 ∨ t.phdr2 ≠ s.phdr2 → byWord [0x005, 0x007]) ∧
    (t.verdict ≠ s.verdict ∨ t.vIhl ≠ s.vIhl ∨ t.vTotlen ≠ s.vTotlen ∨ t.vEmb ≠ s.vEmb ∨ t.vCmp ≠ s.vCmp →
      byWord [0x007]) ∧
    t.bufBytes = s.bufBytes

/-- R27, R176, R177: only an illegal command word sets ERR_CMD and only an out-of-range ADD or VAL sets ERR_RANGE; only a STATUS
write with the bit set, or a reset, clears one. -/
def Obligations.ErrorBitsAreStickyAndPrecise : Prop :=
  ∀ s t : State, step s = .next t →
    (s.errCmd = false → t.errCmd = true → ∃ w rest, s.inbox = commandWrite w :: rest ∧ IllegalCommand w) ∧
    (s.errRange = false → t.errRange = true →
      ∃ w rest, s.inbox = commandWrite w :: rest ∧ (w = 0x002 ∨ w = 0x007) ∧ ¬ s.InRange) ∧
    (s.errCmd = true → t.errCmd = false →
      (∃ cut rest, s.inbox = .reset cut :: rest) ∨
        ∃ v rest, s.inbox = .access ⟨true, 0x0C, 2, v⟩ :: rest ∧ v.toNat % 2 = 1) ∧
    (s.errRange = true → t.errRange = false →
      (∃ cut rest, s.inbox = .reset cut :: rest) ∨
        ∃ v rest, s.inbox = .access ⟨true, 0x0C, 2, v⟩ :: rest ∧ v.toNat / 2 % 2 = 1)

/-- 10_state.md R39 to R44, R46, R5: a step from a state that meets the invariant gives one that meets it. -/
def Obligations.StepKeepsTheInvariant : Prop := ∀ s t : State, s.Inv → step s = .next t → t.Inv

/-- 70_reset_and_hazards.md R190: the state after reset meets the invariant. -/
def Obligations.ResetMeetsTheInvariant : Prop := State.reset.Inv
end

