-- ==== Sys2Proof/Laws/State.lean ====
section
/-! SUPPORT. What each update of State does to each field: one lemma per field per update. -/

namespace Sys2Proof.Machine

variable (s : State)

/-! `State.setStream` -/

@[simp] theorem State.setStream_bufBytes (a : Word) (p : Bool) : (s.setStream a p).bufBytes = s.bufBytes := rfl
@[simp] theorem State.setStream_errCmd (a : Word) (p : Bool) : (s.setStream a p).errCmd = s.errCmd := rfl
@[simp] theorem State.setStream_errRange (a : Word) (p : Bool) : (s.setStream a p).errRange = s.errRange := rfl
@[simp] theorem State.setStream_phase (a : Word) (p : Bool) : (s.setStream a p).phase = p := rfl
@[simp] theorem State.setStream_addr (a : Word) (p : Bool) : (s.setStream a p).addr = s.addr := rfl
@[simp] theorem State.setStream_len (a : Word) (p : Bool) : (s.setStream a p).len = s.len := rfl
@[simp] theorem State.setStream_data (a : Word) (p : Bool) : (s.setStream a p).data = s.data := rfl
@[simp] theorem State.setStream_acc (a : Word) (p : Bool) : (s.setStream a p).acc = a := rfl
@[simp] theorem State.setStream_result (a : Word) (p : Bool) : (s.setStream a p).result = s.result := rfl
@[simp] theorem State.setStream_phSrc (a : Word) (p : Bool) : (s.setStream a p).phSrc = s.phSrc := rfl
@[simp] theorem State.setStream_phDst (a : Word) (p : Bool) : (s.setStream a p).phDst = s.phDst := rfl
@[simp] theorem State.setStream_phLen (a : Word) (p : Bool) : (s.setStream a p).phLen = s.phLen := rfl
@[simp] theorem State.setStream_phdr0 (a : Word) (p : Bool) : (s.setStream a p).phdr0 = s.phdr0 := rfl
@[simp] theorem State.setStream_phdr1 (a : Word) (p : Bool) : (s.setStream a p).phdr1 = s.phdr1 := rfl
@[simp] theorem State.setStream_phdr2 (a : Word) (p : Bool) : (s.setStream a p).phdr2 = s.phdr2 := rfl
@[simp] theorem State.setStream_verdict (a : Word) (p : Bool) : (s.setStream a p).verdict = s.verdict := rfl
@[simp] theorem State.setStream_vIhl (a : Word) (p : Bool) : (s.setStream a p).vIhl = s.vIhl := rfl
@[simp] theorem State.setStream_vTotlen (a : Word) (p : Bool) : (s.setStream a p).vTotlen = s.vTotlen := rfl
@[simp] theorem State.setStream_vEmb (a : Word) (p : Bool) : (s.setStream a p).vEmb = s.vEmb := rfl
@[simp] theorem State.setStream_vCmp (a : Word) (p : Bool) : (s.setStream a p).vCmp = s.vCmp := rfl
@[simp] theorem State.setStream_buf (a : Word) (p : Bool) : (s.setStream a p).buf = s.buf := rfl
@[simp] theorem State.setStream_epoch (a : Word) (p : Bool) : (s.setStream a p).epoch = s.epoch := rfl
@[simp] theorem State.setStream_inbox (a : Word) (p : Bool) : (s.setStream a p).inbox = s.inbox := rfl
@[simp] theorem State.setStream_outbox (a : Word) (p : Bool) : (s.setStream a p).outbox = s.outbox := rfl

/-! `State.setResult` -/

@[simp] theorem State.setResult_bufBytes (r : Half) : (s.setResult r).bufBytes = s.bufBytes := rfl
@[simp] theorem State.setResult_errCmd (r : Half) : (s.setResult r).errCmd = s.errCmd := rfl
@[simp] theorem State.setResult_errRange (r : Half) : (s.setResult r).errRange = s.errRange := rfl
@[simp] theorem State.setResult_phase (r : Half) : (s.setResult r).phase = s.phase := rfl
@[simp] theorem State.setResult_addr (r : Half) : (s.setResult r).addr = s.addr := rfl
@[simp] theorem State.setResult_len (r : Half) : (s.setResult r).len = s.len := rfl
@[simp] theorem State.setResult_data (r : Half) : (s.setResult r).data = s.data := rfl
@[simp] theorem State.setResult_acc (r : Half) : (s.setResult r).acc = s.acc := rfl
@[simp] theorem State.setResult_result (r : Half) : (s.setResult r).result = r := rfl
@[simp] theorem State.setResult_phSrc (r : Half) : (s.setResult r).phSrc = s.phSrc := rfl
@[simp] theorem State.setResult_phDst (r : Half) : (s.setResult r).phDst = s.phDst := rfl
@[simp] theorem State.setResult_phLen (r : Half) : (s.setResult r).phLen = s.phLen := rfl
@[simp] theorem State.setResult_phdr0 (r : Half) : (s.setResult r).phdr0 = s.phdr0 := rfl
@[simp] theorem State.setResult_phdr1 (r : Half) : (s.setResult r).phdr1 = s.phdr1 := rfl
@[simp] theorem State.setResult_phdr2 (r : Half) : (s.setResult r).phdr2 = s.phdr2 := rfl
@[simp] theorem State.setResult_verdict (r : Half) : (s.setResult r).verdict = s.verdict := rfl
@[simp] theorem State.setResult_vIhl (r : Half) : (s.setResult r).vIhl = s.vIhl := rfl
@[simp] theorem State.setResult_vTotlen (r : Half) : (s.setResult r).vTotlen = s.vTotlen := rfl
@[simp] theorem State.setResult_vEmb (r : Half) : (s.setResult r).vEmb = s.vEmb := rfl
@[simp] theorem State.setResult_vCmp (r : Half) : (s.setResult r).vCmp = s.vCmp := rfl
@[simp] theorem State.setResult_buf (r : Half) : (s.setResult r).buf = s.buf := rfl
@[simp] theorem State.setResult_epoch (r : Half) : (s.setResult r).epoch = s.epoch := rfl
@[simp] theorem State.setResult_inbox (r : Half) : (s.setResult r).inbox = s.inbox := rfl
@[simp] theorem State.setResult_outbox (r : Half) : (s.setResult r).outbox = s.outbox := rfl

/-! `State.setPhdr` -/

@[simp] theorem State.setPhdr_bufBytes (p q r : Word) : (s.setPhdr p q r).bufBytes = s.bufBytes := rfl
@[simp] theorem State.setPhdr_errCmd (p q r : Word) : (s.setPhdr p q r).errCmd = s.errCmd := rfl
@[simp] theorem State.setPhdr_errRange (p q r : Word) : (s.setPhdr p q r).errRange = s.errRange := rfl
@[simp] theorem State.setPhdr_phase (p q r : Word) : (s.setPhdr p q r).phase = s.phase := rfl
@[simp] theorem State.setPhdr_addr (p q r : Word) : (s.setPhdr p q r).addr = s.addr := rfl
@[simp] theorem State.setPhdr_len (p q r : Word) : (s.setPhdr p q r).len = s.len := rfl
@[simp] theorem State.setPhdr_data (p q r : Word) : (s.setPhdr p q r).data = s.data := rfl
@[simp] theorem State.setPhdr_acc (p q r : Word) : (s.setPhdr p q r).acc = s.acc := rfl
@[simp] theorem State.setPhdr_result (p q r : Word) : (s.setPhdr p q r).result = s.result := rfl
@[simp] theorem State.setPhdr_phSrc (p q r : Word) : (s.setPhdr p q r).phSrc = s.phSrc := rfl
@[simp] theorem State.setPhdr_phDst (p q r : Word) : (s.setPhdr p q r).phDst = s.phDst := rfl
@[simp] theorem State.setPhdr_phLen (p q r : Word) : (s.setPhdr p q r).phLen = s.phLen := rfl
@[simp] theorem State.setPhdr_phdr0 (p q r : Word) : (s.setPhdr p q r).phdr0 = p := rfl
@[simp] theorem State.setPhdr_phdr1 (p q r : Word) : (s.setPhdr p q r).phdr1 = q := rfl
@[simp] theorem State.setPhdr_phdr2 (p q r : Word) : (s.setPhdr p q r).phdr2 = r := rfl
@[simp] theorem State.setPhdr_verdict (p q r : Word) : (s.setPhdr p q r).verdict = s.verdict := rfl
@[simp] theorem State.setPhdr_vIhl (p q r : Word) : (s.setPhdr p q r).vIhl = s.vIhl := rfl
@[simp] theorem State.setPhdr_vTotlen (p q r : Word) : (s.setPhdr p q r).vTotlen = s.vTotlen := rfl
@[simp] theorem State.setPhdr_vEmb (p q r : Word) : (s.setPhdr p q r).vEmb = s.vEmb := rfl
@[simp] theorem State.setPhdr_vCmp (p q r : Word) : (s.setPhdr p q r).vCmp = s.vCmp := rfl
@[simp] theorem State.setPhdr_buf (p q r : Word) : (s.setPhdr p q r).buf = s.buf := rfl
@[simp] theorem State.setPhdr_epoch (p q r : Word) : (s.setPhdr p q r).epoch = s.epoch := rfl
@[simp] theorem State.setPhdr_inbox (p q r : Word) : (s.setPhdr p q r).inbox = s.inbox := rfl
@[simp] theorem State.setPhdr_outbox (p q r : Word) : (s.setPhdr p q r).outbox = s.outbox := rfl

/-! `State.setVerdict` -/

@[simp] theorem State.setVerdict_bufBytes (v : Verdict) (i : BitVec 6) (x y z : Half) : (s.setVerdict v i x y z).bufBytes = s.bufBytes := rfl
@[simp] theorem State.setVerdict_errCmd (v : Verdict) (i : BitVec 6) (x y z : Half) : (s.setVerdict v i x y z).errCmd = s.errCmd := rfl
@[simp] theorem State.setVerdict_errRange (v : Verdict) (i : BitVec 6) (x y z : Half) : (s.setVerdict v i x y z).errRange = s.errRange := rfl
@[simp] theorem State.setVerdict_phase (v : Verdict) (i : BitVec 6) (x y z : Half) : (s.setVerdict v i x y z).phase = s.phase := rfl
@[simp] theorem State.setVerdict_addr (v : Verdict) (i : BitVec 6) (x y z : Half) : (s.setVerdict v i x y z).addr = s.addr := rfl
@[simp] theorem State.setVerdict_len (v : Verdict) (i : BitVec 6) (x y z : Half) : (s.setVerdict v i x y z).len = s.len := rfl
@[simp] theorem State.setVerdict_data (v : Verdict) (i : BitVec 6) (x y z : Half) : (s.setVerdict v i x y z).data = s.data := rfl
@[simp] theorem State.setVerdict_acc (v : Verdict) (i : BitVec 6) (x y z : Half) : (s.setVerdict v i x y z).acc = s.acc := rfl
@[simp] theorem State.setVerdict_result (v : Verdict) (i : BitVec 6) (x y z : Half) : (s.setVerdict v i x y z).result = s.result := rfl
@[simp] theorem State.setVerdict_phSrc (v : Verdict) (i : BitVec 6) (x y z : Half) : (s.setVerdict v i x y z).phSrc = s.phSrc := rfl
@[simp] theorem State.setVerdict_phDst (v : Verdict) (i : BitVec 6) (x y z : Half) : (s.setVerdict v i x y z).phDst = s.phDst := rfl
@[simp] theorem State.setVerdict_phLen (v : Verdict) (i : BitVec 6) (x y z : Half) : (s.setVerdict v i x y z).phLen = s.phLen := rfl
@[simp] theorem State.setVerdict_phdr0 (v : Verdict) (i : BitVec 6) (x y z : Half) : (s.setVerdict v i x y z).phdr0 = s.phdr0 := rfl
@[simp] theorem State.setVerdict_phdr1 (v : Verdict) (i : BitVec 6) (x y z : Half) : (s.setVerdict v i x y z).phdr1 = s.phdr1 := rfl
@[simp] theorem State.setVerdict_phdr2 (v : Verdict) (i : BitVec 6) (x y z : Half) : (s.setVerdict v i x y z).phdr2 = s.phdr2 := rfl
@[simp] theorem State.setVerdict_verdict (v : Verdict) (i : BitVec 6) (x y z : Half) : (s.setVerdict v i x y z).verdict = v := rfl
@[simp] theorem State.setVerdict_vIhl (v : Verdict) (i : BitVec 6) (x y z : Half) : (s.setVerdict v i x y z).vIhl = i := rfl
@[simp] theorem State.setVerdict_vTotlen (v : Verdict) (i : BitVec 6) (x y z : Half) : (s.setVerdict v i x y z).vTotlen = x := rfl
@[simp] theorem State.setVerdict_vEmb (v : Verdict) (i : BitVec 6) (x y z : Half) : (s.setVerdict v i x y z).vEmb = y := rfl
@[simp] theorem State.setVerdict_vCmp (v : Verdict) (i : BitVec 6) (x y z : Half) : (s.setVerdict v i x y z).vCmp = z := rfl
@[simp] theorem State.setVerdict_buf (v : Verdict) (i : BitVec 6) (x y z : Half) : (s.setVerdict v i x y z).buf = s.buf := rfl
@[simp] theorem State.setVerdict_epoch (v : Verdict) (i : BitVec 6) (x y z : Half) : (s.setVerdict v i x y z).epoch = s.epoch := rfl
@[simp] theorem State.setVerdict_inbox (v : Verdict) (i : BitVec 6) (x y z : Half) : (s.setVerdict v i x y z).inbox = s.inbox := rfl
@[simp] theorem State.setVerdict_outbox (v : Verdict) (i : BitVec 6) (x y z : Half) : (s.setVerdict v i x y z).outbox = s.outbox := rfl

/-! `State.clearErrors` -/

@[simp] theorem State.clearErrors_bufBytes (v : Word) : (s.clearErrors v).bufBytes = s.bufBytes := rfl
@[simp] theorem State.clearErrors_errCmd (v : Word) : (s.clearErrors v).errCmd = (s.errCmd && !v.getLsbD 0) := rfl
@[simp] theorem State.clearErrors_errRange (v : Word) : (s.clearErrors v).errRange = (s.errRange && !v.getLsbD 1) := rfl
@[simp] theorem State.clearErrors_phase (v : Word) : (s.clearErrors v).phase = s.phase := rfl
@[simp] theorem State.clearErrors_addr (v : Word) : (s.clearErrors v).addr = s.addr := rfl
@[simp] theorem State.clearErrors_len (v : Word) : (s.clearErrors v).len = s.len := rfl
@[simp] theorem State.clearErrors_data (v : Word) : (s.clearErrors v).data = s.data := rfl
@[simp] theorem State.clearErrors_acc (v : Word) : (s.clearErrors v).acc = s.acc := rfl
@[simp] theorem State.clearErrors_result (v : Word) : (s.clearErrors v).result = s.result := rfl
@[simp] theorem State.clearErrors_phSrc (v : Word) : (s.clearErrors v).phSrc = s.phSrc := rfl
@[simp] theorem State.clearErrors_phDst (v : Word) : (s.clearErrors v).phDst = s.phDst := rfl
@[simp] theorem State.clearErrors_phLen (v : Word) : (s.clearErrors v).phLen = s.phLen := rfl
@[simp] theorem State.clearErrors_phdr0 (v : Word) : (s.clearErrors v).phdr0 = s.phdr0 := rfl
@[simp] theorem State.clearErrors_phdr1 (v : Word) : (s.clearErrors v).phdr1 = s.phdr1 := rfl
@[simp] theorem State.clearErrors_phdr2 (v : Word) : (s.clearErrors v).phdr2 = s.phdr2 := rfl
@[simp] theorem State.clearErrors_verdict (v : Word) : (s.clearErrors v).verdict = s.verdict := rfl
@[simp] theorem State.clearErrors_vIhl (v : Word) : (s.clearErrors v).vIhl = s.vIhl := rfl
@[simp] theorem State.clearErrors_vTotlen (v : Word) : (s.clearErrors v).vTotlen = s.vTotlen := rfl
@[simp] theorem State.clearErrors_vEmb (v : Word) : (s.clearErrors v).vEmb = s.vEmb := rfl
@[simp] theorem State.clearErrors_vCmp (v : Word) : (s.clearErrors v).vCmp = s.vCmp := rfl
@[simp] theorem State.clearErrors_buf (v : Word) : (s.clearErrors v).buf = s.buf := rfl
@[simp] theorem State.clearErrors_epoch (v : Word) : (s.clearErrors v).epoch = s.epoch := rfl
@[simp] theorem State.clearErrors_inbox (v : Word) : (s.clearErrors v).inbox = s.inbox := rfl
@[simp] theorem State.clearErrors_outbox (v : Word) : (s.clearErrors v).outbox = s.outbox := rfl

/-! `State.respond` -/

@[simp] theorem State.respond_bufBytes (r : Response) : (s.respond r).bufBytes = s.bufBytes := rfl
@[simp] theorem State.respond_errCmd (r : Response) : (s.respond r).errCmd = s.errCmd := rfl
@[simp] theorem State.respond_errRange (r : Response) : (s.respond r).errRange = s.errRange := rfl
@[simp] theorem State.respond_phase (r : Response) : (s.respond r).phase = s.phase := rfl
@[simp] theorem State.respond_addr (r : Response) : (s.respond r).addr = s.addr := rfl
@[simp] theorem State.respond_len (r : Response) : (s.respond r).len = s.len := rfl
@[simp] theorem State.respond_data (r : Response) : (s.respond r).data = s.data := rfl
@[simp] theorem State.respond_acc (r : Response) : (s.respond r).acc = s.acc := rfl
@[simp] theorem State.respond_result (r : Response) : (s.respond r).result = s.result := rfl
@[simp] theorem State.respond_phSrc (r : Response) : (s.respond r).phSrc = s.phSrc := rfl
@[simp] theorem State.respond_phDst (r : Response) : (s.respond r).phDst = s.phDst := rfl
@[simp] theorem State.respond_phLen (r : Response) : (s.respond r).phLen = s.phLen := rfl
@[simp] theorem State.respond_phdr0 (r : Response) : (s.respond r).phdr0 = s.phdr0 := rfl
@[simp] theorem State.respond_phdr1 (r : Response) : (s.respond r).phdr1 = s.phdr1 := rfl
@[simp] theorem State.respond_phdr2 (r : Response) : (s.respond r).phdr2 = s.phdr2 := rfl
@[simp] theorem State.respond_verdict (r : Response) : (s.respond r).verdict = s.verdict := rfl
@[simp] theorem State.respond_vIhl (r : Response) : (s.respond r).vIhl = s.vIhl := rfl
@[simp] theorem State.respond_vTotlen (r : Response) : (s.respond r).vTotlen = s.vTotlen := rfl
@[simp] theorem State.respond_vEmb (r : Response) : (s.respond r).vEmb = s.vEmb := rfl
@[simp] theorem State.respond_vCmp (r : Response) : (s.respond r).vCmp = s.vCmp := rfl
@[simp] theorem State.respond_buf (r : Response) : (s.respond r).buf = s.buf := rfl
@[simp] theorem State.respond_epoch (r : Response) : (s.respond r).epoch = s.epoch := rfl
@[simp] theorem State.respond_inbox (r : Response) : (s.respond r).inbox = s.inbox := rfl
@[simp] theorem State.respond_outbox (r : Response) : (s.respond r).outbox = s.outbox ++ [r] := rfl

/-! `State.setInbox` -/

@[simp] theorem State.setInbox_bufBytes (evs : List PortEvent) : (s.setInbox evs).bufBytes = s.bufBytes := rfl
@[simp] theorem State.setInbox_errCmd (evs : List PortEvent) : (s.setInbox evs).errCmd = s.errCmd := rfl
@[simp] theorem State.setInbox_errRange (evs : List PortEvent) : (s.setInbox evs).errRange = s.errRange := rfl
@[simp] theorem State.setInbox_phase (evs : List PortEvent) : (s.setInbox evs).phase = s.phase := rfl
@[simp] theorem State.setInbox_addr (evs : List PortEvent) : (s.setInbox evs).addr = s.addr := rfl
@[simp] theorem State.setInbox_len (evs : List PortEvent) : (s.setInbox evs).len = s.len := rfl
@[simp] theorem State.setInbox_data (evs : List PortEvent) : (s.setInbox evs).data = s.data := rfl
@[simp] theorem State.setInbox_acc (evs : List PortEvent) : (s.setInbox evs).acc = s.acc := rfl
@[simp] theorem State.setInbox_result (evs : List PortEvent) : (s.setInbox evs).result = s.result := rfl
@[simp] theorem State.setInbox_phSrc (evs : List PortEvent) : (s.setInbox evs).phSrc = s.phSrc := rfl
@[simp] theorem State.setInbox_phDst (evs : List PortEvent) : (s.setInbox evs).phDst = s.phDst := rfl
@[simp] theorem State.setInbox_phLen (evs : List PortEvent) : (s.setInbox evs).phLen = s.phLen := rfl
@[simp] theorem State.setInbox_phdr0 (evs : List PortEvent) : (s.setInbox evs).phdr0 = s.phdr0 := rfl
@[simp] theorem State.setInbox_phdr1 (evs : List PortEvent) : (s.setInbox evs).phdr1 = s.phdr1 := rfl
@[simp] theorem State.setInbox_phdr2 (evs : List PortEvent) : (s.setInbox evs).phdr2 = s.phdr2 := rfl
@[simp] theorem State.setInbox_verdict (evs : List PortEvent) : (s.setInbox evs).verdict = s.verdict := rfl
@[simp] theorem State.setInbox_vIhl (evs : List PortEvent) : (s.setInbox evs).vIhl = s.vIhl := rfl
@[simp] theorem State.setInbox_vTotlen (evs : List PortEvent) : (s.setInbox evs).vTotlen = s.vTotlen := rfl
@[simp] theorem State.setInbox_vEmb (evs : List PortEvent) : (s.setInbox evs).vEmb = s.vEmb := rfl
@[simp] theorem State.setInbox_vCmp (evs : List PortEvent) : (s.setInbox evs).vCmp = s.vCmp := rfl
@[simp] theorem State.setInbox_buf (evs : List PortEvent) : (s.setInbox evs).buf = s.buf := rfl
@[simp] theorem State.setInbox_epoch (evs : List PortEvent) : (s.setInbox evs).epoch = s.epoch := rfl
@[simp] theorem State.setInbox_inbox (evs : List PortEvent) : (s.setInbox evs).inbox = evs := rfl
@[simp] theorem State.setInbox_outbox (evs : List PortEvent) : (s.setInbox evs).outbox = s.outbox := rfl

/-! `State.memWrite` -/

@[simp] theorem State.memWrite_bufBytes (a : Nat) (v : List Byte) : (s.memWrite a v).bufBytes = s.bufBytes := rfl
@[simp] theorem State.memWrite_errCmd (a : Nat) (v : List Byte) : (s.memWrite a v).errCmd = s.errCmd := rfl
@[simp] theorem State.memWrite_errRange (a : Nat) (v : List Byte) : (s.memWrite a v).errRange = s.errRange := rfl
@[simp] theorem State.memWrite_phase (a : Nat) (v : List Byte) : (s.memWrite a v).phase = s.phase := rfl
@[simp] theorem State.memWrite_addr (a : Nat) (v : List Byte) : (s.memWrite a v).addr = s.addr := rfl
@[simp] theorem State.memWrite_len (a : Nat) (v : List Byte) : (s.memWrite a v).len = s.len := rfl
@[simp] theorem State.memWrite_data (a : Nat) (v : List Byte) : (s.memWrite a v).data = s.data := rfl
@[simp] theorem State.memWrite_acc (a : Nat) (v : List Byte) : (s.memWrite a v).acc = s.acc := rfl
@[simp] theorem State.memWrite_result (a : Nat) (v : List Byte) : (s.memWrite a v).result = s.result := rfl
@[simp] theorem State.memWrite_phSrc (a : Nat) (v : List Byte) : (s.memWrite a v).phSrc = s.phSrc := rfl
@[simp] theorem State.memWrite_phDst (a : Nat) (v : List Byte) : (s.memWrite a v).phDst = s.phDst := rfl
@[simp] theorem State.memWrite_phLen (a : Nat) (v : List Byte) : (s.memWrite a v).phLen = s.phLen := rfl
@[simp] theorem State.memWrite_phdr0 (a : Nat) (v : List Byte) : (s.memWrite a v).phdr0 = s.phdr0 := rfl
@[simp] theorem State.memWrite_phdr1 (a : Nat) (v : List Byte) : (s.memWrite a v).phdr1 = s.phdr1 := rfl
@[simp] theorem State.memWrite_phdr2 (a : Nat) (v : List Byte) : (s.memWrite a v).phdr2 = s.phdr2 := rfl
@[simp] theorem State.memWrite_verdict (a : Nat) (v : List Byte) : (s.memWrite a v).verdict = s.verdict := rfl
@[simp] theorem State.memWrite_vIhl (a : Nat) (v : List Byte) : (s.memWrite a v).vIhl = s.vIhl := rfl
@[simp] theorem State.memWrite_vTotlen (a : Nat) (v : List Byte) : (s.memWrite a v).vTotlen = s.vTotlen := rfl
@[simp] theorem State.memWrite_vEmb (a : Nat) (v : List Byte) : (s.memWrite a v).vEmb = s.vEmb := rfl
@[simp] theorem State.memWrite_vCmp (a : Nat) (v : List Byte) : (s.memWrite a v).vCmp = s.vCmp := rfl
@[simp] theorem State.memWrite_buf (a : Nat) (v : List Byte) : (s.memWrite a v).buf = s.buf.insertAll a v := rfl
@[simp] theorem State.memWrite_epoch (a : Nat) (v : List Byte) : (s.memWrite a v).epoch = s.epoch := rfl
@[simp] theorem State.memWrite_inbox (a : Nat) (v : List Byte) : (s.memWrite a v).inbox = s.inbox := rfl
@[simp] theorem State.memWrite_outbox (a : Nat) (v : List Byte) : (s.memWrite a v).outbox = s.outbox := rfl

/-! `State.raise` -/

@[simp] theorem State.raise_bufBytes (c : CmdError) : (s.raise c).bufBytes = s.bufBytes := by cases c <;> rfl
@[simp] theorem State.raise_cmd_errCmd : (s.raise .cmd).errCmd = true := rfl
@[simp] theorem State.raise_range_errCmd : (s.raise .range).errCmd = s.errCmd := rfl
@[simp] theorem State.raise_cmd_errRange : (s.raise .cmd).errRange = s.errRange := rfl
@[simp] theorem State.raise_range_errRange : (s.raise .range).errRange = true := rfl
@[simp] theorem State.raise_phase (c : CmdError) : (s.raise c).phase = s.phase := by cases c <;> rfl
@[simp] theorem State.raise_addr (c : CmdError) : (s.raise c).addr = s.addr := by cases c <;> rfl
@[simp] theorem State.raise_len (c : CmdError) : (s.raise c).len = s.len := by cases c <;> rfl
@[simp] theorem State.raise_data (c : CmdError) : (s.raise c).data = s.data := by cases c <;> rfl
@[simp] theorem State.raise_acc (c : CmdError) : (s.raise c).acc = s.acc := by cases c <;> rfl
@[simp] theorem State.raise_result (c : CmdError) : (s.raise c).result = s.result := by cases c <;> rfl
@[simp] theorem State.raise_phSrc (c : CmdError) : (s.raise c).phSrc = s.phSrc := by cases c <;> rfl
@[simp] theorem State.raise_phDst (c : CmdError) : (s.raise c).phDst = s.phDst := by cases c <;> rfl
@[simp] theorem State.raise_phLen (c : CmdError) : (s.raise c).phLen = s.phLen := by cases c <;> rfl
@[simp] theorem State.raise_phdr0 (c : CmdError) : (s.raise c).phdr0 = s.phdr0 := by cases c <;> rfl
@[simp] theorem State.raise_phdr1 (c : CmdError) : (s.raise c).phdr1 = s.phdr1 := by cases c <;> rfl
@[simp] theorem State.raise_phdr2 (c : CmdError) : (s.raise c).phdr2 = s.phdr2 := by cases c <;> rfl
@[simp] theorem State.raise_verdict (c : CmdError) : (s.raise c).verdict = s.verdict := by cases c <;> rfl
@[simp] theorem State.raise_vIhl (c : CmdError) : (s.raise c).vIhl = s.vIhl := by cases c <;> rfl
@[simp] theorem State.raise_vTotlen (c : CmdError) : (s.raise c).vTotlen = s.vTotlen := by cases c <;> rfl
@[simp] theorem State.raise_vEmb (c : CmdError) : (s.raise c).vEmb = s.vEmb := by cases c <;> rfl
@[simp] theorem State.raise_vCmp (c : CmdError) : (s.raise c).vCmp = s.vCmp := by cases c <;> rfl
@[simp] theorem State.raise_buf (c : CmdError) : (s.raise c).buf = s.buf := by cases c <;> rfl
@[simp] theorem State.raise_epoch (c : CmdError) : (s.raise c).epoch = s.epoch := by cases c <;> rfl
@[simp] theorem State.raise_inbox (c : CmdError) : (s.raise c).inbox = s.inbox := by cases c <;> rfl
@[simp] theorem State.raise_outbox (c : CmdError) : (s.raise c).outbox = s.outbox := by cases c <;> rfl

/-! `State.writeOperand` -/

@[simp] theorem State.writeOperand_bufBytes (r : OperandReg) (v : Word) : (s.writeOperand r v).bufBytes = s.bufBytes := by cases r <;> rfl
@[simp] theorem State.writeOperand_errCmd (r : OperandReg) (v : Word) : (s.writeOperand r v).errCmd = s.errCmd := by cases r <;> rfl
@[simp] theorem State.writeOperand_errRange (r : OperandReg) (v : Word) : (s.writeOperand r v).errRange = s.errRange := by cases r <;> rfl
@[simp] theorem State.writeOperand_phase (r : OperandReg) (v : Word) : (s.writeOperand r v).phase = s.phase := by cases r <;> rfl
@[simp] theorem State.writeOperand_addr (r : OperandReg) (v : Word) :
    (s.writeOperand r v).addr = if r = .ADDR then v else s.addr := by cases r <;> rfl
@[simp] theorem State.writeOperand_len (r : OperandReg) (v : Word) :
    (s.writeOperand r v).len = if r = .LEN then v else s.len := by cases r <;> rfl
@[simp] theorem State.writeOperand_data (r : OperandReg) (v : Word) :
    (s.writeOperand r v).data = if r = .DATA then v else s.data := by cases r <;> rfl
@[simp] theorem State.writeOperand_acc (r : OperandReg) (v : Word) : (s.writeOperand r v).acc = s.acc := by cases r <;> rfl
@[simp] theorem State.writeOperand_result (r : OperandReg) (v : Word) : (s.writeOperand r v).result = s.result := by cases r <;> rfl
@[simp] theorem State.writeOperand_phSrc (r : OperandReg) (v : Word) :
    (s.writeOperand r v).phSrc = if r = .PH_SRC then v else s.phSrc := by cases r <;> rfl
@[simp] theorem State.writeOperand_phDst (r : OperandReg) (v : Word) :
    (s.writeOperand r v).phDst = if r = .PH_DST then v else s.phDst := by cases r <;> rfl
@[simp] theorem State.writeOperand_phLen (r : OperandReg) (v : Word) :
    (s.writeOperand r v).phLen = if r = .PH_LEN then v.setWidth 16 else s.phLen := by cases r <;> rfl
@[simp] theorem State.writeOperand_phdr0 (r : OperandReg) (v : Word) : (s.writeOperand r v).phdr0 = s.phdr0 := by cases r <;> rfl
@[simp] theorem State.writeOperand_phdr1 (r : OperandReg) (v : Word) : (s.writeOperand r v).phdr1 = s.phdr1 := by cases r <;> rfl
@[simp] theorem State.writeOperand_phdr2 (r : OperandReg) (v : Word) : (s.writeOperand r v).phdr2 = s.phdr2 := by cases r <;> rfl
@[simp] theorem State.writeOperand_verdict (r : OperandReg) (v : Word) : (s.writeOperand r v).verdict = s.verdict := by cases r <;> rfl
@[simp] theorem State.writeOperand_vIhl (r : OperandReg) (v : Word) : (s.writeOperand r v).vIhl = s.vIhl := by cases r <;> rfl
@[simp] theorem State.writeOperand_vTotlen (r : OperandReg) (v : Word) : (s.writeOperand r v).vTotlen = s.vTotlen := by cases r <;> rfl
@[simp] theorem State.writeOperand_vEmb (r : OperandReg) (v : Word) : (s.writeOperand r v).vEmb = s.vEmb := by cases r <;> rfl
@[simp] theorem State.writeOperand_vCmp (r : OperandReg) (v : Word) : (s.writeOperand r v).vCmp = s.vCmp := by cases r <;> rfl
@[simp] theorem State.writeOperand_buf (r : OperandReg) (v : Word) : (s.writeOperand r v).buf = s.buf := by cases r <;> rfl
@[simp] theorem State.writeOperand_epoch (r : OperandReg) (v : Word) : (s.writeOperand r v).epoch = s.epoch := by cases r <;> rfl
@[simp] theorem State.writeOperand_inbox (r : OperandReg) (v : Word) : (s.writeOperand r v).inbox = s.inbox := by cases r <;> rfl
@[simp] theorem State.writeOperand_outbox (r : OperandReg) (v : Word) : (s.writeOperand r v).outbox = s.outbox := by cases r <;> rfl

/-! `State.afterReset` -/

@[simp] theorem State.afterReset_bufBytes : s.afterReset.bufBytes = s.bufBytes := rfl
@[simp] theorem State.afterReset_errCmd : s.afterReset.errCmd = false := rfl
@[simp] theorem State.afterReset_errRange : s.afterReset.errRange = false := rfl
@[simp] theorem State.afterReset_phase : s.afterReset.phase = false := rfl
@[simp] theorem State.afterReset_addr : s.afterReset.addr = 0 := rfl
@[simp] theorem State.afterReset_len : s.afterReset.len = 0 := rfl
@[simp] theorem State.afterReset_data : s.afterReset.data = 0 := rfl
@[simp] theorem State.afterReset_acc : s.afterReset.acc = 0 := rfl
@[simp] theorem State.afterReset_result : s.afterReset.result = 0 := rfl
@[simp] theorem State.afterReset_phSrc : s.afterReset.phSrc = 0 := rfl
@[simp] theorem State.afterReset_phDst : s.afterReset.phDst = 0 := rfl
@[simp] theorem State.afterReset_phLen : s.afterReset.phLen = 0 := rfl
@[simp] theorem State.afterReset_phdr0 : s.afterReset.phdr0 = 0 := rfl
@[simp] theorem State.afterReset_phdr1 : s.afterReset.phdr1 = 0 := rfl
@[simp] theorem State.afterReset_phdr2 : s.afterReset.phdr2 = 0 := rfl
@[simp] theorem State.afterReset_verdict : s.afterReset.verdict = .noneYet := rfl
@[simp] theorem State.afterReset_vIhl : s.afterReset.vIhl = 0 := rfl
@[simp] theorem State.afterReset_vTotlen : s.afterReset.vTotlen = 0 := rfl
@[simp] theorem State.afterReset_vEmb : s.afterReset.vEmb = 0 := rfl
@[simp] theorem State.afterReset_vCmp : s.afterReset.vCmp = 0 := rfl
@[simp] theorem State.afterReset_buf : s.afterReset.buf = [] := rfl
@[simp] theorem State.afterReset_epoch : s.afterReset.epoch = s.epoch + 1 := rfl
@[simp] theorem State.afterReset_inbox : s.afterReset.inbox = s.inbox := rfl
@[simp] theorem State.afterReset_outbox : s.afterReset.outbox = s.outbox := rfl

end Sys2Proof.Machine
end

