-- ==== Sys2Proof/Laws/Memory.lean ====
section
/-! SUPPORT. The buffer: a read after a write, the canonical form, and that equal contents are equal data (10_state.md R46, R47). -/

namespace Sys2Proof.Machine

/-! ## One byte -/

theorem Memory.find?_insert (m : Memory) (a c : Nat) (v : Byte) :
    (m.insert a v).find? c = if c = a then some v else m.find? c := by
  induction m with
  | nil => simp [Memory.insert, Memory.find?]
  | cons x rest ih =>
    obtain ⟨b, w⟩ := x
    simp only [Memory.insert]
    split
    · simp [Memory.find?]
    · split
      · subst a; simp only [Memory.find?]; split <;> simp
      · simp only [Memory.find?, ih]; split <;> split <;> simp_all

/-- The offsets of a list start above `lo`. -/
def Memory.above (m : Memory) (lo : Nat) : Prop := ∀ x ∈ m, lo < x.1

theorem Memory.wf_cons (a : Nat) (v : Byte) (m : Memory) :
    Memory.wf ((a, v) :: m) = true ↔ Memory.above m a ∧ Memory.wf m = true := by
  induction m generalizing a v with
  | nil => simp [Memory.wf, Memory.above]
  | cons x rest ih =>
    obtain ⟨b, w⟩ := x
    simp only [Memory.wf, Bool.and_eq_true, decide_eq_true_eq]
    constructor
    · rintro ⟨h, hw⟩
      refine ⟨?_, hw⟩
      have := ((ih b w).1 hw).1
      intro y hy
      rcases List.mem_cons.1 hy with rfl | hy
      · exact h
      · exact Nat.lt_trans h (this y hy)
    · rintro ⟨h, hw⟩
      exact ⟨h (b, w) (by simp), hw⟩

theorem Memory.mem_insert {m : Memory} {a : Nat} {v : Byte} {x : Host.Cell} (h : x ∈ m.insert a v) :
    x = (a, v) ∨ x ∈ m := by
  induction m with
  | nil => simpa [Memory.insert] using h
  | cons y rest ih =>
    obtain ⟨b, w⟩ := y
    simp only [Memory.insert] at h
    split at h
    · simpa using h
    · split at h
      · rcases List.mem_cons.1 h with h | h
        · exact .inl h
        · exact .inr (by simp [h])
      · rcases List.mem_cons.1 h with h | h
        · exact .inr (by simp [h])
        · rcases ih h with h | h
          · exact .inl h
          · exact .inr (by simp [h])

theorem Memory.insert_wf {m : Memory} (a : Nat) (v : Byte) (h : m.wf = true) : (m.insert a v).wf = true := by
  induction m with
  | nil => rfl
  | cons x rest ih =>
    obtain ⟨b, w⟩ := x
    have hc := (Memory.wf_cons b w rest).1 h
    simp only [Memory.insert]
    split
    · rename_i hlt
      refine (Memory.wf_cons _ _ _).2 ⟨?_, h⟩
      intro y hy
      rcases List.mem_cons.1 hy with rfl | hy
      · exact hlt
      · exact Nat.lt_trans hlt (hc.1 y hy)
    · split
      · subst a; exact (Memory.wf_cons _ _ _).2 hc
      · rename_i h1 h2
        refine (Memory.wf_cons _ _ _).2 ⟨?_, ih hc.2⟩
        intro y hy
        rcases Memory.mem_insert hy with rfl | hy
        · show b < a; omega
        · exact hc.1 y hy

theorem Memory.insert_inside {m : Memory} {a bound : Nat} (v : Byte) (h : m.inside bound = true) (ha : a < bound) :
    (m.insert a v).inside bound = true := by
  simp only [Memory.inside, List.all_eq_true, decide_eq_true_eq] at h ⊢
  intro x hx
  rcases Memory.mem_insert hx with rfl | hx
  · exact ha
  · exact h x hx

/-! ## Several bytes -/

theorem Memory.insertAll_wf {m : Memory} (a : Nat) (vs : List Byte) (h : m.wf = true) : (m.insertAll a vs).wf = true := by
  induction vs generalizing m a with
  | nil => exact h
  | cons v vs ih => exact ih _ (Memory.insert_wf a v h)

theorem Memory.insertAll_inside {m : Memory} {bound : Nat} (a : Nat) (vs : List Byte) (h : m.inside bound = true)
    (ha : a + vs.length ≤ bound) : (m.insertAll a vs).inside bound = true := by
  induction vs generalizing m a with
  | nil => exact h
  | cons v vs ih =>
    simp only [List.length_cons] at ha
    exact ih _ (Memory.insert_inside v h (by omega)) (by omega)

/-- What a byte reads as after a write of several: the written one inside the written range, the old one outside it. -/
theorem Memory.find?_insertAll (m : Memory) (a c : Nat) (vs : List Byte) :
    (m.insertAll a vs).find? c = if h : a ≤ c ∧ c - a < vs.length then some (vs[c - a]'h.2) else m.find? c := by
  induction vs generalizing m a with
  | nil => simp [Memory.insertAll]
  | cons v vs ih =>
    rw [Memory.insertAll, ih, Memory.find?_insert]
    by_cases hc : c = a
    · subst hc; simp
    · by_cases hle : a + 1 ≤ c
      · obtain ⟨k, rfl⟩ : ∃ k, c = a + 1 + k := ⟨c - (a + 1), by omega⟩
        have e1 : a + 1 + k - (a + 1) = k := by omega
        have e2 : a + 1 + k - a = k + 1 := by omega
        simp only [e1, e2, List.length_cons, List.getElem_cons_succ, Nat.le_add_right, true_and, hc, if_false,
          show a ≤ a + 1 + k by omega, Nat.add_lt_add_iff_right]
      · have : ¬ a ≤ c := by omega
        simp [hle, this, hc]

/-- Equal contents are equal data. -/
theorem Memory.ext_of_find? {m n : Memory} (hm : m.wf = true) (hn : n.wf = true) (h : ∀ a, m.find? a = n.find? a) :
    m = n := by
  have none_below : ∀ (r : Memory) (a : Nat), Memory.above r a → r.find? a = none := by
    intro r
    induction r with
    | nil => intro a _; rfl
    | cons x rest ih =>
      intro a ha
      obtain ⟨b, w⟩ := x
      have hb : a < b := ha (b, w) (by simp)
      have hr := ih a (fun y hy => ha y (by simp [hy]))
      simp [Memory.find?, hr, show a ≠ b by omega]
  induction m generalizing n with
  | nil =>
    cases n with
    | nil => rfl
    | cons y rest => obtain ⟨b, w⟩ := y; simpa [Memory.find?] using h b
  | cons x rest ih =>
    obtain ⟨a, v⟩ := x
    obtain ⟨ha, hw⟩ := (Memory.wf_cons a v rest).1 hm
    cases n with
    | nil => simpa [Memory.find?] using h a
    | cons y rest' =>
      obtain ⟨b, w⟩ := y
      obtain ⟨hb, hw'⟩ := (Memory.wf_cons b w rest').1 hn
      have key : a = b := by
        by_contra hne
        rcases Nat.lt_or_gt_of_ne hne with hlt | hlt
        · have hn0 := none_below rest' a (fun y hy => Nat.lt_trans hlt (hb y hy))
          simpa [Memory.find?, hne, hn0] using h a
        · have hn0 := none_below rest b (fun y hy => Nat.lt_trans hlt (ha y hy))
          simpa [Memory.find?, Ne.symm hne, hn0] using h b
      subst key
      have hv : v = w := by simpa [Memory.find?] using h a
      subst hv
      refine congrArg _ (ih hw hw' ?_)
      intro c
      by_cases hc : c = a
      · subst hc; rw [none_below rest c ha, none_below rest' c hb]
      · simpa [Memory.find?, hc] using h c

/-! ## Bytes of a state -/

/-- BUF[c] after a host write of the bytes `v` at `a`. -/
theorem State.byteAt_memWrite (s : State) (a c : Nat) (v : List Byte) :
    (s.memWrite a v).byteAt c = if h : a ≤ c ∧ c - a < v.length then v[c - a]'h.2 else s.byteAt c := by
  unfold State.byteAt
  rw [State.memWrite_buf, Memory.find?_insertAll, State.memWrite_epoch]
  by_cases h : a ≤ c ∧ c - a < v.length <;> simp [h]

/-- A byte is a function of BUF and of the reset that drew it. -/
theorem State.byteAt_congr {s t : State} (hb : t.buf = s.buf) (he : t.epoch = s.epoch) (a : Nat) :
    t.byteAt a = s.byteAt a := by
  unfold State.byteAt; rw [hb, he]

@[simp] theorem State.memRead_length (s : State) (a n : Nat) : (s.memRead a n).length = n := by simp [State.memRead]

@[simp] theorem State.memRead_getElem (s : State) (a n i : Nat) (h : i < (s.memRead a n).length) :
    (s.memRead a n)[i] = s.byteAt (a + i) := by simp [State.memRead]

theorem State.memRead_congr {s t : State} (hb : t.buf = s.buf) (he : t.epoch = s.epoch) (a n : Nat) :
    t.memRead a n = s.memRead a n := by
  unfold State.memRead; simp [State.byteAt_congr hb he]

theorem State.memRead_append (s : State) (a m n : Nat) :
    s.memRead a (m + n) = s.memRead a m ++ s.memRead (a + m) n := by
  simp [State.memRead, List.range_add, Nat.add_assoc]

end Sys2Proof.Machine
end

