-- ==== Sys2Proof/Laws/Stream.lean ====
section
/-! SUPPORT. The accumulator, the fold and the stream: what each does to numbers (40_checksum_engine.md R101 to R103), and what
feeding changes. -/

namespace Sys2Proof.Machine

/-! ## `be16` -/

theorem be16_toNat (h l : Byte) : (be16 h l).toNat = h.toNat * 256 + l.toNat := by
  unfold be16
  have := l.isLt
  rw [BitVec.toNat_append, ← Nat.shiftLeft_add_eq_or_of_lt this, Nat.shiftLeft_eq]

/-! ## `accAdd` (R102) -/

theorem accAdd_toNat (a : Word) (v : Half) :
    (accAdd a v).toNat = (a.toNat + v.toNat) % 2 ^ 32 + (a.toNat + v.toNat) / 2 ^ 32 := by
  have := a.isLt
  have := v.isLt
  simp only [accAdd, BitVec.toNat_ofNat]
  omega

/-- Below 2^32 nothing is carried. -/
theorem accAdd_toNat_of_lt {a : Word} {v : Half} (h : a.toNat + v.toNat < 2 ^ 32) :
    (accAdd a v).toNat = a.toNat + v.toNat := by
  rw [accAdd_toNat]; omega

theorem accAdd_mod (a : Word) (v : Half) : (accAdd a v).toNat % 65535 = (a.toNat + v.toNat) % 65535 := by
  have := a.isLt
  have := v.isLt
  rw [accAdd_toNat]; omega

theorem accAdd_toNat_eq_zero (a : Word) (v : Half) : (accAdd a v).toNat = 0 ↔ a.toNat = 0 ∧ v.toNat = 0 := by
  have := a.isLt
  have := v.isLt
  rw [accAdd_toNat]; omega

@[simp] theorem accAdd_zero (a : Word) : accAdd a 0#16 = a := by
  have := a.isLt
  apply BitVec.eq_of_toNat_eq
  rw [accAdd_toNat]; simp only [BitVec.toNat_ofNat]; omega

/-! ## `fold16` (R103) -/

/-- Folding keeps the residue modulo 0xFFFF, and answers 0xFFFF for a non-zero multiple of it. -/
theorem fold16_residue (a : Word) : (fold16 a).toNat = if a.toNat = 0 then 0 else (a.toNat - 1) % 65535 + 1 := by
  have := a.isLt
  simp only [fold16, BitVec.toNat_ofNat]
  obtain ⟨q, r, hq, hr, ha⟩ : ∃ q r, q < 65536 ∧ r < 65536 ∧ a.toNat = 65536 * q + r :=
    ⟨a.toNat / 65536, a.toNat % 65536, by omega, by omega, by omega⟩
  rw [ha, show (65536 * q + r) / 2 ^ 16 = q by omega, show (65536 * q + r) % 2 ^ 16 = r by omega]
  by_cases h0 : q + r = 0
  · obtain ⟨rfl, rfl⟩ : q = 0 ∧ r = 0 := by omega
    rfl
  rw [if_neg (by omega), show 65536 * q + r - 1 = 65535 * q + (q + r - 1) by omega, Nat.mul_add_mod]
  rcases Nat.lt_or_ge (q + r) 65536 with h | h
  · have e : (q + r - 1) % 65535 = q + r - 1 := Nat.mod_eq_of_lt (by omega)
    rw [show (q + r) / 2 ^ 16 = 0 by omega, show (q + r) % 2 ^ 16 = q + r by omega, e]; omega
  · have e : (q + r - 1) % 65535 = q + r - 65536 := by omega
    rw [show (q + r) / 2 ^ 16 = 1 by omega, show (q + r) % 2 ^ 16 = q + r - 65536 by omega, e]; omega

theorem finish_toNat (a : Word) : (finish a).toNat = 65535 - (fold16 a).toNat := by
  simp [finish, BitVec.toNat_not]

/-! ## `feedByte` and `feedBytes` (R101) -/

/-- One byte: everything `feedByte` does. -/
theorem State.feedByte_eq (s : State) (b : Byte) :
    s.feedByte b = s.setStream (accAdd s.acc (if s.phase then be16 0 b else be16 b 0)) (!s.phase) := by
  unfold State.feedByte; split <;> simp_all

/-- Bytes: everything `feedBytes` does, on numbers. Only ACC and PHASE change. -/
theorem State.feedBytes_eq (s : State) (bs : List Byte) :
    s.feedBytes bs = s.setStream (BitVec.ofNat 32 (referenceStream (s.acc.toNat, s.phase) bs).1)
      (referenceStream (s.acc.toNat, s.phase) bs).2 := by
  induction bs generalizing s with
  | nil => simp [State.feedBytes, referenceStream, State.setStream]
  | cons b bs ih =>
    have hfeed : ((s.feedByte b).acc.toNat, (s.feedByte b).phase) = referenceFeed (s.acc.toNat, s.phase) b := by
      rw [State.feedByte_eq]
      simp only [State.setStream_acc, State.setStream_phase, referenceFeed, accAdd_toNat]
      cases s.phase <;> simp [be16_toNat]
    rw [State.feedBytes, ih, hfeed, State.feedByte_eq]
    rfl

theorem State.feedBytes_append (s : State) (xs ys : List Byte) :
    s.feedBytes (xs ++ ys) = (s.feedBytes xs).feedBytes ys := by
  induction xs generalizing s with
  | nil => rfl
  | cons x xs ih => exact ih _

/-- What `feedBytes` leaves: it is one update of ACC and PHASE. -/
theorem State.feedBytes_eq_setStream (s : State) (bs : List Byte) : ∃ a p, s.feedBytes bs = s.setStream a p :=
  ⟨_, _, s.feedBytes_eq bs⟩

/-- PHASE is the parity of the bytes fed. -/
theorem State.feedBytes_phase (s : State) (bs : List Byte) :
    (s.feedBytes bs).phase = (s.phase ^^ decide (bs.length % 2 = 1)) := by
  induction bs generalizing s with
  | nil => simp [State.feedBytes]
  | cons b bs ih =>
    rw [State.feedBytes, ih, State.feedByte_eq]
    simp only [State.setStream_phase, List.length_cons]
    rcases Nat.mod_two_eq_zero_or_one bs.length with h | h <;> cases s.phase <;>
      simp [h, Nat.add_mod]

/-- A run of zero bytes of even length leaves everything as it was. -/
theorem State.feedBytes_zeros (s : State) (k : Nat) : s.feedBytes (List.replicate (2 * k) 0) = s := by
  have two : ∀ t : State, (t.feedByte 0).feedByte 0 = t := by
    intro t
    have hz : be16 0#8 0#8 = 0#16 := rfl
    rw [State.feedByte_eq, State.feedByte_eq]
    cases t; simp [State.setStream, hz]
  induction k generalizing s with
  | zero => rfl
  | succ k ih =>
    rw [show 2 * (k + 1) = (2 * k + 1) + 1 by omega, List.replicate_succ, List.replicate_succ]
    show ((s.feedByte 0).feedByte 0).feedBytes _ = s
    rw [two, ih]

/-! ## The word sum (R109) -/

theorem wordSum_cons_cons (h l : Byte) (rest : List Byte) :
    wordSum (h :: l :: rest) = h.toNat * 256 + l.toNat + wordSum rest := by
  unfold wordSum paddedBytes
  have hpar : (h :: l :: rest).length % 2 = rest.length % 2 := by simp only [List.length_cons]; omega
  rw [hpar]
  split <;> rfl

@[simp] theorem wordSum_nil : wordSum [] = 0 := rfl

@[simp] theorem wordSum_singleton (h : Byte) : wordSum [h] = h.toNat * 256 := by
  simp [wordSum, paddedBytes, evenWordSum]

/-- One more byte is the high byte of a new word, or the low byte of the open one. -/
theorem wordSum_append_byte (bs : List Byte) (b : Byte) :
    wordSum (bs ++ [b]) = wordSum bs + (if bs.length % 2 = 1 then b.toNat else b.toNat * 256) := by
  match bs with
  | [] => simp
  | [h] => simp [wordSum_cons_cons]
  | h :: l :: rest =>
    rw [List.cons_append, List.cons_append, wordSum_cons_cons, wordSum_cons_cons, wordSum_append_byte rest b]
    have hpar : (h :: l :: rest).length % 2 = rest.length % 2 := by simp only [List.length_cons]; omega
    rw [hpar]
    omega

/-- Every word is at most 0xFFFF. -/
theorem wordSum_le (bs : List Byte) : wordSum bs ≤ 65535 * ((bs.length + 1) / 2) := by
  match bs with
  | [] => simp
  | [h] => have := h.isLt; simp only [wordSum_singleton, List.length_singleton]; omega
  | h :: l :: rest =>
    have := wordSum_le rest
    have := h.isLt
    have := l.isLt
    rw [wordSum_cons_cons]
    simp only [List.length_cons]
    omega

/-- The loop of R109 ends at the residue modulo 0xFFFF, with 0xFFFF for a non-zero multiple. -/
theorem foldCarries_eq (fuel s : Nat) (h : s ≤ fuel) :
    foldCarries fuel s = if s = 0 then 0 else (s - 1) % 65535 + 1 := by
  induction fuel generalizing s with
  | zero => obtain rfl : s = 0 := by omega
            rfl
  | succ fuel ih =>
    rw [foldCarries]
    split
    · split <;> omega
    · rw [ih _ (by omega)]
      split <;> split <;> omega

theorem compute_toNat (bs : List Byte) :
    (compute bs).toNat = 65535 - (if wordSum bs = 0 then 0 else (wordSum bs - 1) % 65535 + 1) := by
  simp only [compute, BitVec.toNat_not, BitVec.toNat_ofNat, foldCarries_eq _ _ (Nat.le_refl _)]
  split <;> omega

/-- The accumulator and the word sum of the stream (R102, R109): equal residues, zero together, equal below 2^32. -/
structure Accumulates (acc : Nat) (sum : Nat) : Prop where
  residue : acc % 65535 = sum % 65535
  zero : acc = 0 ↔ sum = 0
  exact : sum < 2 ^ 32 → acc = sum

theorem Accumulates.accAdd {a : Word} {sum : Nat} (h : Accumulates a.toNat sum) (v : Half) :
    Accumulates (accAdd a v).toNat (sum + v.toNat) where
  residue := by have := h.residue; rw [accAdd_mod]; omega
  zero := by have := h.zero; rw [accAdd_toNat_eq_zero]; omega
  exact hs := by
    have := h.exact (by omega)
    rw [accAdd_toNat_of_lt (by omega), this]

/-- Feeding bytes to a state whose ACC and PHASE hold a stream (R109). -/
theorem State.feedBytes_accumulates {s : State} {bs : List Byte} (ha : Accumulates s.acc.toNat (wordSum bs))
    (hp : s.phase = decide (bs.length % 2 = 1)) (xs : List Byte) :
    Accumulates (s.feedBytes xs).acc.toNat (wordSum (bs ++ xs)) ∧
      (s.feedBytes xs).phase = decide ((bs ++ xs).length % 2 = 1) := by
  induction xs generalizing s bs with
  | nil => simpa [State.feedBytes] using ⟨ha, hp⟩
  | cons x xs ih =>
    have hacc : Accumulates (s.feedByte x).acc.toNat (wordSum (bs ++ [x])) := by
      rw [wordSum_append_byte, State.feedByte_eq]
      by_cases h : bs.length % 2 = 1
      · have := ha.accAdd (be16 0 x)
        simpa [hp, h, be16_toNat] using this
      · have := ha.accAdd (be16 x 0)
        simpa [hp, h, be16_toNat] using this
    have hph : (s.feedByte x).phase = decide ((bs ++ [x]).length % 2 = 1) := by
      rw [State.feedByte_eq]
      rcases Nat.mod_two_eq_zero_or_one bs.length with h | h <;> simp [hp, h, Nat.add_mod]
    have := ih hacc hph
    simpa [State.feedBytes] using this

/-- FIN's value for an accumulator that holds a stream (R109, R110). -/
theorem Accumulates.finish_eq_compute {a : Word} {bs : List Byte} (h : Accumulates a.toNat (wordSum bs)) :
    finish a = compute bs := by
  apply BitVec.eq_of_toNat_eq
  have := h.residue
  have := h.zero
  rw [finish_toNat, fold16_residue, compute_toNat]
  split <;> split <;> omega

end Sys2Proof.Machine
end

