-- ==== Sys2Proof/Laws/Exec.lean ====
section
/-! SUPPORT. What executing a command does: every command answers a next state, named by `effect`, and what it leaves unchanged
(10_state.md R45). -/

namespace Sys2Proof.Machine

/-! ## `feedBytes` writes ACC and PHASE alone -/

variable (s : State)

@[simp] theorem State.feedBytes_bufBytes (bs : List Byte) : (s.feedBytes bs).bufBytes = s.bufBytes := by
  rw [State.feedBytes_eq]; rfl
@[simp] theorem State.feedBytes_errCmd (bs : List Byte) : (s.feedBytes bs).errCmd = s.errCmd := by
  rw [State.feedBytes_eq]; rfl
@[simp] theorem State.feedBytes_errRange (bs : List Byte) : (s.feedBytes bs).errRange = s.errRange := by
  rw [State.feedBytes_eq]; rfl
@[simp] theorem State.feedBytes_addr (bs : List Byte) : (s.feedBytes bs).addr = s.addr := by
  rw [State.feedBytes_eq]; rfl
@[simp] theorem State.feedBytes_len (bs : List Byte) : (s.feedBytes bs).len = s.len := by
  rw [State.feedBytes_eq]; rfl
@[simp] theorem State.feedBytes_data (bs : List Byte) : (s.feedBytes bs).data = s.data := by
  rw [State.feedBytes_eq]; rfl
@[simp] theorem State.feedBytes_result (bs : List Byte) : (s.feedBytes bs).result = s.result := by
  rw [State.feedBytes_eq]; rfl
@[simp] theorem State.feedBytes_phSrc (bs : List Byte) : (s.feedBytes bs).phSrc = s.phSrc := by
  rw [State.feedBytes_eq]; rfl
@[simp] theorem State.feedBytes_phDst (bs : List Byte) : (s.feedBytes bs).phDst = s.phDst := by
  rw [State.feedBytes_eq]; rfl
@[simp] theorem State.feedBytes_phLen (bs : List Byte) : (s.feedBytes bs).phLen = s.phLen := by
  rw [State.feedBytes_eq]; rfl
@[simp] theorem State.feedBytes_phdr0 (bs : List Byte) : (s.feedBytes bs).phdr0 = s.phdr0 := by
  rw [State.feedBytes_eq]; rfl
@[simp] theorem State.feedBytes_phdr1 (bs : List Byte) : (s.feedBytes bs).phdr1 = s.phdr1 := by
  rw [State.feedBytes_eq]; rfl
@[simp] theorem State.feedBytes_phdr2 (bs : List Byte) : (s.feedBytes bs).phdr2 = s.phdr2 := by
  rw [State.feedBytes_eq]; rfl
@[simp] theorem State.feedBytes_verdict (bs : List Byte) : (s.feedBytes bs).verdict = s.verdict := by
  rw [State.feedBytes_eq]; rfl
@[simp] theorem State.feedBytes_vIhl (bs : List Byte) : (s.feedBytes bs).vIhl = s.vIhl := by
  rw [State.feedBytes_eq]; rfl
@[simp] theorem State.feedBytes_vTotlen (bs : List Byte) : (s.feedBytes bs).vTotlen = s.vTotlen := by
  rw [State.feedBytes_eq]; rfl
@[simp] theorem State.feedBytes_vEmb (bs : List Byte) : (s.feedBytes bs).vEmb = s.vEmb := by
  rw [State.feedBytes_eq]; rfl
@[simp] theorem State.feedBytes_vCmp (bs : List Byte) : (s.feedBytes bs).vCmp = s.vCmp := by
  rw [State.feedBytes_eq]; rfl
@[simp] theorem State.feedBytes_buf (bs : List Byte) : (s.feedBytes bs).buf = s.buf := by
  rw [State.feedBytes_eq]; rfl
@[simp] theorem State.feedBytes_epoch (bs : List Byte) : (s.feedBytes bs).epoch = s.epoch := by
  rw [State.feedBytes_eq]; rfl
@[simp] theorem State.feedBytes_inbox (bs : List Byte) : (s.feedBytes bs).inbox = s.inbox := by
  rw [State.feedBytes_eq]; rfl
@[simp] theorem State.feedBytes_outbox (bs : List Byte) : (s.feedBytes bs).outbox = s.outbox := by
  rw [State.feedBytes_eq]; rfl

/-! ## A validated frame -/

/-- The stream VAL sums: the pseudo-header it has built, then the zeroed segment (42_validator.md R151). -/
def frameStream (f : List Byte) : List Byte :=
  wordBytes (frameSource f) ++ wordBytes (frameDestination f) ++ wordBytes (phdr2Of (BitVec.ofInt 16 (frameSeglen f))) ++
    zeroedSegment (frameSegment f)

/-- Everything `validateFrame` writes. -/
theorem State.validateFrame_eq (f : List Byte) :
    s.validateFrame f =
      let p2 := phdr2Of (BitVec.ofInt 16 (frameSeglen f))
      let summed := ((s.setPhdr (frameSource f) (frameDestination f) p2).setStream 0 false).feedBytes (frameStream f)
      let emb := segmentChecksum (frameSegment f)
      (summed.setResult (finish summed.acc)).setVerdict (compareVerdict (finish summed.acc) emb)
        (BitVec.ofNat 6 (frameIhl f)) (frameTotlen f) emb (finish summed.acc) := by
  unfold State.validateFrame frameStream
  simp only [State.phBytes, State.setPhdr_phdr0, State.setPhdr_phdr1, State.setPhdr_phdr2, ← State.feedBytes_append]

@[simp] theorem State.validate_bufBytes (f : List Byte) : (s.validate f).bufBytes = s.bufBytes := by
  unfold State.validate; split <;> simp [State.parseFail, State.validateFrame_eq]
@[simp] theorem State.validate_errCmd (f : List Byte) : (s.validate f).errCmd = s.errCmd := by
  unfold State.validate; split <;> simp [State.parseFail, State.validateFrame_eq]
@[simp] theorem State.validate_errRange (f : List Byte) : (s.validate f).errRange = s.errRange := by
  unfold State.validate; split <;> simp [State.parseFail, State.validateFrame_eq]
@[simp] theorem State.validate_addr (f : List Byte) : (s.validate f).addr = s.addr := by
  unfold State.validate; split <;> simp [State.parseFail, State.validateFrame_eq]
@[simp] theorem State.validate_len (f : List Byte) : (s.validate f).len = s.len := by
  unfold State.validate; split <;> simp [State.parseFail, State.validateFrame_eq]
@[simp] theorem State.validate_data (f : List Byte) : (s.validate f).data = s.data := by
  unfold State.validate; split <;> simp [State.parseFail, State.validateFrame_eq]
@[simp] theorem State.validate_phSrc (f : List Byte) : (s.validate f).phSrc = s.phSrc := by
  unfold State.validate; split <;> simp [State.parseFail, State.validateFrame_eq]
@[simp] theorem State.validate_phDst (f : List Byte) : (s.validate f).phDst = s.phDst := by
  unfold State.validate; split <;> simp [State.parseFail, State.validateFrame_eq]
@[simp] theorem State.validate_phLen (f : List Byte) : (s.validate f).phLen = s.phLen := by
  unfold State.validate; split <;> simp [State.parseFail, State.validateFrame_eq]
@[simp] theorem State.validate_buf (f : List Byte) : (s.validate f).buf = s.buf := by
  unfold State.validate; split <;> simp [State.parseFail, State.validateFrame_eq]
@[simp] theorem State.validate_epoch (f : List Byte) : (s.validate f).epoch = s.epoch := by
  unfold State.validate; split <;> simp [State.parseFail, State.validateFrame_eq]
@[simp] theorem State.validate_inbox (f : List Byte) : (s.validate f).inbox = s.inbox := by
  unfold State.validate; split <;> simp [State.parseFail, State.validateFrame_eq]
@[simp] theorem State.validate_outbox (f : List Byte) : (s.validate f).outbox = s.outbox := by
  unfold State.validate; split <;> simp [State.parseFail, State.validateFrame_eq]

/-! ## `effect` -/

/-- The state a command leaves (R107, R105, R106, R108, R110, R132, R133, R140). -/
def effect (i : Instr) (s : State) : State :=
  match i with
  | .nop => s
  | .clr => s.setStream 0 false
  | .add => if s.rangeOk then s.feedBytes s.operandBytes else s.raise .range
  | .feed n => if feedCountLegal n then s.feedBytes (feedOperand n.toNat s.data) else s.raise .cmd
  | .fin => s.setResult (finish s.acc)
  | .phb => s.setPhdr s.phSrc s.phDst (phdr2Of s.phLen)
  | .pha => s.feedBytes s.phBytes
  | .val => if s.rangeOk then s.validate s.operandBytes else s.raise .range

/-- Every command completes. -/
theorem exec_eq_effect (i : Instr) : exec i s = .next (effect i s) := by
  cases i <;> simp only [exec, effect] <;>
    first
      | rfl
      | (simp only [execAdd]; split <;> rfl)
      | (simp only [execFeed]; split <;> rfl)
      | (simp only [execVal]; split <;> rfl)

theorem exec_next_iff (i : Instr) (t : State) : exec i s = .next t ↔ t = effect i s := by
  rw [exec_eq_effect]; constructor <;> (intro h; cases h; rfl)

@[simp] theorem effect_bufBytes (i : Instr) : (effect i s).bufBytes = s.bufBytes := by
  cases i <;> simp only [effect] <;> (try split) <;> simp
@[simp] theorem effect_addr (i : Instr) : (effect i s).addr = s.addr := by
  cases i <;> simp only [effect] <;> (try split) <;> simp
@[simp] theorem effect_len (i : Instr) : (effect i s).len = s.len := by
  cases i <;> simp only [effect] <;> (try split) <;> simp
@[simp] theorem effect_data (i : Instr) : (effect i s).data = s.data := by
  cases i <;> simp only [effect] <;> (try split) <;> simp
@[simp] theorem effect_phSrc (i : Instr) : (effect i s).phSrc = s.phSrc := by
  cases i <;> simp only [effect] <;> (try split) <;> simp
@[simp] theorem effect_phDst (i : Instr) : (effect i s).phDst = s.phDst := by
  cases i <;> simp only [effect] <;> (try split) <;> simp
@[simp] theorem effect_phLen (i : Instr) : (effect i s).phLen = s.phLen := by
  cases i <;> simp only [effect] <;> (try split) <;> simp
@[simp] theorem effect_buf (i : Instr) : (effect i s).buf = s.buf := by
  cases i <;> simp only [effect] <;> (try split) <;> simp
@[simp] theorem effect_epoch (i : Instr) : (effect i s).epoch = s.epoch := by
  cases i <;> simp only [effect] <;> (try split) <;> simp
@[simp] theorem effect_inbox (i : Instr) : (effect i s).inbox = s.inbox := by
  cases i <;> simp only [effect] <;> (try split) <;> simp
@[simp] theorem effect_outbox (i : Instr) : (effect i s).outbox = s.outbox := by
  cases i <;> simp only [effect] <;> (try split) <;> simp

end Sys2Proof.Machine
end

