-- ==== Sys2Proof/Laws/Bus.lean ====
section
/-! SUPPORT. What a step does: every step answers a next state, and the cases it can be (20_memory.md R62, R70, R76). -/

namespace Sys2Proof.Machine

/-- The state a command word leaves (30_encoding.md R81). -/
def commandEffect (w : Word) (s : State) : State :=
  match decode w with
  | .ok i => effect i s
  | .error _ => s.raise .cmd

theorem runCommand_eq (w : Word) (s : State) : runCommand w s = .next (commandEffect w s) := by
  unfold runCommand commandEffect
  cases decode w with
  | ok i => exact exec_eq_effect s i
  | error e => rfl

/-- The state a taken transaction leaves, before its response. -/
def accessEffect (s : State) : Access → State
  | .readReg _ => s
  | .command w => commandEffect w s
  | .clearStatus w => s.clearErrors w
  | .writeOperand r v => s.writeOperand r v
  | .readBuffer _ _ => s
  | .writeBuffer a v => s.memWrite a v

/-- The read data of a taken transaction: 0 for a write (R62). -/
def accessData (s : State) : Access → Word
  | .readReg r => s.readReg r
  | .command _ => 0
  | .clearStatus _ => 0
  | .writeOperand _ _ => 0
  | .readBuffer a n => transferValue (s.memRead a n)
  | .writeBuffer _ _ => 0

theorem perform_eq (s : State) (x : Access) :
    perform s x = .next ((accessEffect s x).respond (.okay (accessData s x))) := by
  cases x <;> simp only [perform, accessEffect, accessData, runCommand_eq, answer]

theorem transact_error {s : State} {x : Transaction} {f : Fault} (h : route s.bufBytes x = .error f) :
    transact x s = .next (s.respond (.err f)) := by
  unfold transact; rw [h]

theorem transact_ok {s : State} {x : Transaction} {a : Access} (h : route s.bufBytes x = .ok a) :
    transact x s = .next ((accessEffect s a).respond (.okay (accessData s a))) := by
  unfold transact; rw [h]; exact perform_eq s a

/-! ## `step` -/

theorem step_idle {s : State} (h : s.inbox = []) : step s = .next s := by
  unfold step advance; rw [h]

theorem step_reset {s : State} {cut : Option Transaction} {rest : List PortEvent} (h : s.inbox = .reset cut :: rest) :
    step s = .next (s.setInbox rest).afterReset := by
  unfold step advance; rw [h]; rfl

theorem step_access {s : State} {x : Transaction} {rest : List PortEvent} (h : s.inbox = .access x :: rest) :
    step s = transact x (s.setInbox rest) := by
  unfold step advance; rw [h]; rfl

theorem step_error {s : State} {x : Transaction} {rest : List PortEvent} {f : Fault} (h : s.inbox = .access x :: rest)
    (hr : route s.bufBytes x = .error f) : step s = .next ((s.setInbox rest).respond (.err f)) := by
  rw [step_access h]; exact transact_error hr

theorem step_ok {s : State} {x : Transaction} {rest : List PortEvent} {a : Access} (h : s.inbox = .access x :: rest)
    (hr : route s.bufBytes x = .ok a) :
    step s = .next ((accessEffect (s.setInbox rest) a).respond (.okay (accessData (s.setInbox rest) a))) := by
  rw [step_access h]; exact transact_ok hr

/-- Every event completes (70_reset_and_hazards.md R201). -/
theorem step_next (s : State) : ∃ t, step s = .next t := by
  rcases h : s.inbox with _ | ⟨_ | _, rest⟩
  · exact ⟨_, step_idle h⟩
  · rename_i x
    rcases hr : route s.bufBytes x with f | a
    · exact ⟨_, step_error h hr⟩
    · exact ⟨_, step_ok h hr⟩
  · exact ⟨_, step_reset h⟩

/-- Everything a step can be: idle, a reset, an ERR, or a taken transaction. -/
theorem step_cases {s t : State} (h : step s = .next t) :
    (s.inbox = [] ∧ t = s) ∨
    (∃ cut rest, s.inbox = .reset cut :: rest ∧ t = (s.setInbox rest).afterReset) ∨
    (∃ x rest f, s.inbox = .access x :: rest ∧ route s.bufBytes x = .error f ∧ t = (s.setInbox rest).respond (.err f)) ∨
    (∃ x rest a, s.inbox = .access x :: rest ∧ route s.bufBytes x = .ok a ∧
      t = (accessEffect (s.setInbox rest) a).respond (.okay (accessData (s.setInbox rest) a))) := by
  rcases hi : s.inbox with _ | ⟨_ | _, rest⟩
  · rw [step_idle hi] at h; cases h; exact .inl ⟨rfl, rfl⟩
  · rename_i x
    rcases hr : route s.bufBytes x with f | a
    · rw [step_error hi hr] at h; cases h; exact .inr (.inr (.inl ⟨x, rest, f, rfl, hr, rfl⟩))
    · rw [step_ok hi hr] at h; cases h; exact .inr (.inr (.inr ⟨x, rest, a, rfl, hr, rfl⟩))
  · rw [step_reset hi] at h; cases h; exact .inr (.inl ⟨_, rest, rfl, rfl⟩)

/-! ## Routing -/

/-- The sizes the codes name (10_state.md R20). -/
theorem sizeBytes_eq (c : BitVec 2) : sizeBytes c = if c = 3 then none else some (2 ^ c.toNat) := by
  revert c; decide

/-- A transaction in the register window, answered by the register's slot. -/
theorem route_register {b : Nat} {x : Transaction} (hs : x.size = 2) (ho : x.off.toNat < 0x100) (ha : x.off.toNat % 4 = 0) :
    route b x = routeRegister x 4 := by
  have : sizeBytes x.size = some 4 := by rw [hs]; rfl
  unfold route
  rw [this]
  simp only
  rw [if_neg (by omega), if_neg (by omega), if_pos ho]

/-- A CMD write is never a bus error. -/
@[simp] theorem route_commandWrite (b : Nat) (w : Word) : route b ⟨true, 0x8, 2, w⟩ = .ok (.command w) := by
  rw [route_register rfl (by simp) (by simp)]; rfl

/-- A transaction in the buffer window. -/
theorem route_buffer {b n : Nat} {x : Transaction} (hs : sizeBytes x.size = some n) (ho : 0x10000 ≤ x.off.toNat)
    (ha : x.off.toNat % n = 0) : route b x = routeBuffer b x n (x.off.toNat - 0x10000) := by
  unfold route
  rw [hs]
  simp only
  rw [if_neg (by omega), if_neg (by omega), if_neg (by omega)]

/-- What a taken transaction is, for each access: where it lies and what it carries. -/
theorem route_ok_cases {b : Nat} {x : Transaction} {a : Access} (h : route b x = .ok a) :
    (∃ r, a = .readReg r ∧ x.write = false) ∨
    (∃ w, a = .command w ∧ x = ⟨true, 0x8, 2, w⟩) ∨
    (∃ w, a = .clearStatus w ∧ x = ⟨true, 0xC, 2, w⟩) ∨
    (∃ r v, a = .writeOperand r v ∧ x.write = true) ∨
    (∃ n, a = .readBuffer (x.off.toNat - 0x10000) n ∧ x.write = false) ∨
    (∃ n, a = .writeBuffer (x.off.toNat - 0x10000) (laneBytes n x.wdata) ∧ x.write = true ∧ sizeBytes x.size = some n ∧
      0x10000 ≤ x.off.toNat ∧ x.off.toNat % n = 0 ∧ x.off.toNat - 0x10000 < b) := by
  obtain ⟨wr, off, size, wdata⟩ := x
  unfold route at h
  split at h
  · cases h
  · rename_i n hn
    simp only at hn h
    split at h
    · cases h
    · split at h
      · cases h
      · rename_i h1 h2
        split at h
        · rename_i h3
          unfold routeRegister at h
          split at h
          · cases h
          · rename_i h4
            have hn4 : n = 4 := by omega
            subst hn4
            have hsize : size = 2 := by
              rw [sizeBytes_eq] at hn
              exact (by decide : ∀ c : BitVec 2, (if c = 3 then none else some (2 ^ c.toNat)) = some 4 → c = 2) size hn
            subst hsize
            split at h
            · cases h
            · rename_i r hr
              split at h
              · rename_i hw
                split at h
                · cases h
                · rename_i y hy
                  cases h
                  simp only at hr hw hy
                  subst hw
                  cases r <;> simp only [RegName.writeAccess, Option.some.injEq, reduceCtorEq] at hy <;> subst hy
                  case CMD =>
                    refine .inr (.inl ⟨wdata, rfl, ?_⟩)
                    have : off.toNat = 8 := by
                      revert hr; unfold registerAt; split <;> simp_all
                    have : off = 8 := BitVec.eq_of_toNat_eq this
                    rw [this]
                  case STATUS =>
                    refine .inr (.inr (.inl ⟨wdata, rfl, ?_⟩))
                    have : off.toNat = 0xC := by
                      revert hr; unfold registerAt; split <;> simp_all
                    have : off = 0xC := BitVec.eq_of_toNat_eq this
                    rw [this]
                  all_goals exact .inr (.inr (.inr (.inl ⟨_, _, rfl, rfl⟩)))
              · rename_i hw
                cases h
                exact .inl ⟨r, rfl, by simpa using hw⟩
        · rename_i h3
          unfold routeBuffer at h
          split at h
          · cases h
          · split at h
            · rename_i hb hw
              cases h
              refine .inr (.inr (.inr (.inr (.inr ⟨n, rfl, hw, hn, by simp only; omega, by simp only; omega, ?_⟩))))
              simp only at hb ⊢; omega
            · rename_i hb hw
              cases h
              exact .inr (.inr (.inr (.inr (.inl ⟨n, rfl, by simpa using hw⟩))))

end Sys2Proof.Machine
end

