-- ==== Sys2Proof/Laws/Encoding.lean ====
section
/-! SUPPORT. The fields of a command word as numbers, and what decoding answers (30_encoding.md R80 to R85). -/

namespace Sys2Proof.Machine

/-- The fields of a command word as numbers (R80). -/
theorem commandFields_toNat (w : Word) :
    (reservedField w).toNat = w.toNat / 2048 ∧ (opcodeField w).toNat = w.toNat % 256 ∧
      (countField w).toNat = w.toNat / 256 % 8 := by
  have := w.isLt
  simp only [reservedField, opcodeField, countField, BitVec.extractLsb'_toNat, Nat.shiftRight_eq_div_pow]
  refine ⟨?_, ?_, ?_⟩
  · norm_num; omega
  · norm_num
  · norm_num

/-- Decoding, with RSV as a number. -/
theorem decode_eq (w : Word) :
    decode w =
      if w.toNat / 2048 ≠ 0 then .error .reservedBits else decodeOpcode (opcodeField w) (countField w) := by
  unfold decode
  have := (commandFields_toNat w).1
  have e : reservedField w ≠ 0 ↔ w.toNat / 2048 ≠ 0 := by
    rw [← this, not_iff_not]; constructor
    · rintro h; rw [h]; rfl
    · intro h; exact BitVec.eq_of_toNat_eq h
  by_cases h : w.toNat / 2048 ≠ 0
  · rw [if_pos (e.2 h), if_pos h]
  · rw [if_neg (fun x => h (e.1 x)), if_neg h]

/-- A word below 2048 is an eleven-bit word. -/
theorem word_of_lt (w : Word) (h : w.toNat < 2048) : ∃ m : BitVec 11, w = m.setWidth 32 := by
  refine ⟨w.setWidth 11, BitVec.eq_of_toNat_eq ?_⟩
  simp; omega

/-- What decoding an eleven-bit word answers, against the encoder and R176. -/
def decodeAgrees (m : BitVec 11) : Bool :=
  match decode (m.setWidth 32) with
  | .ok i => i.wellFormed && decide (encode i = m.setWidth 32) && decide (¬ IllegalCommand (m.setWidth 32))
  | .error _ => decide (IllegalCommand (m.setWidth 32))

set_option maxRecDepth 20000 in
/-- ... for every eleven-bit word. -/
theorem decodeAgrees_all : ∀ m : BitVec 11, decodeAgrees m = true := by
  decide

/-- Decoding gives back every well-formed command. -/
theorem decode_encode (i : Instr) (h : WellFormed i) : decode (encode i) = .ok i := by
  cases i
  case feed n => revert n; decide
  all_goals rfl

/-- A word that decodes is the encoding of a well-formed command. -/
theorem decode_ok_spec (w : Word) (i) (h : decode w = .ok i) : WellFormed i ∧ encode i = w ∧ ¬ IllegalCommand w := by
  by_cases hs : w.toNat < 2048
  · obtain ⟨m, rfl⟩ := word_of_lt w hs
    have := decodeAgrees_all m
    unfold decodeAgrees at this
    rw [h] at this; simp only [Bool.and_eq_true, decide_eq_true_eq] at this; exact ⟨this.1.1, this.1.2, this.2⟩
  · rw [decode_eq, if_pos (by omega)] at h; cases h

/-- A word that does not decode has one of the four defects of R176. -/
theorem decode_error_spec (w : Word) (e) (h : decode w = .error e) : IllegalCommand w := by
  by_cases hs : w.toNat < 2048
  · obtain ⟨m, rfl⟩ := word_of_lt w hs
    have := decodeAgrees_all m
    unfold decodeAgrees at this
    rw [h] at this; simp only [decide_eq_true_eq] at this; exact this
  · left; omega

/-- A CMD write of a word (10_state.md R26). -/
theorem step_command {s : State} {w : Word} {rest : List PortEvent} (h : s.inbox = commandWrite w :: rest) :
    step s = .next ((commandEffect w (s.setInbox rest)).respond (.okay 0)) :=
  step_ok h (route_commandWrite _ w)

end Sys2Proof.Machine
end

