-- ==== Sys2Proof/Laws/Frame.lean ====
section
/-! SUPPORT. The frame VAL reads, as a function from frame offsets to bytes (42_validator.md R141 to R149), and the bytes of the
pseudo-header (41_pseudo_header.md R130, R131). -/

namespace Sys2Proof.Machine

/-- R104 as a proposition. -/
theorem rangeOk_iff (s : State) : s.rangeOk = true ↔ s.InRange := by simp [State.rangeOk]

/-- A byte inside the frame. -/
theorem frameByte_eq (s : State) (i : Nat) (h : i < s.len.toNat) : frameByte s.operandBytes i = s.frameFn i := by
  unfold frameByte
  rw [List.getD_eq_getElem _ _ (by simpa [State.operandBytes] using h)]
  simp [State.operandBytes, State.frameFn]

/-- The frame has LEN bytes (R141). -/
theorem operandBytes_length (s : State) : s.operandBytes.length = s.len.toNat := by simp [State.operandBytes]

/-- The decoded header fields (R143). -/
theorem frame_header_eq (s : State) (h : 34 ≤ s.len.toNat) :
    frameIhl s.operandBytes = headerLength s.frameFn ∧ (frameTotlen s.operandBytes).toNat = totalLength s.frameFn := by
  unfold frameIhl headerLength frameTotlen totalLength
  rw [frameByte_eq s _ (by omega), frameByte_eq s _ (by omega), frameByte_eq s _ (by omega), be16_toNat]
  exact ⟨rfl, rfl⟩

/-- VAL past its range check (R140). -/
theorem execVal_of_inRange (s : State) (h : s.InRange) : exec .val s = .next (s.validate s.operandBytes) := by
  rw [exec_eq_effect]; simp only [effect, (rangeOk_iff s).2 h, if_true]

/-- The bytes of a register as numbers (R131). -/
theorem wordBytes_eq (w : Word) :
    wordBytes w = (List.range 4).map fun i => BitVec.ofNat 8 (w.toNat / 2 ^ (24 - 8 * i)) := by
  have k : ∀ a, w.extractLsb' a 8 = BitVec.ofNat 8 (w.toNat / 2 ^ a) := by
    intro a; apply BitVec.eq_of_toNat_eq; simp [BitVec.extractLsb'_toNat, Nat.shiftRight_eq_div_pow]
  simp [wordBytes, k, List.range_succ]

/-- `be32` on numbers. -/
theorem be32_toNat (a b c d : Byte) :
    (be32 a b c d).toNat = a.toNat * 2 ^ 24 + b.toNat * 2 ^ 16 + c.toNat * 2 ^ 8 + d.toNat := by
  have := b.isLt
  have := c.isLt
  have := d.isLt
  unfold be32
  rw [BitVec.toNat_append, ← Nat.shiftLeft_add_eq_or_of_lt (by omega), BitVec.toNat_append,
    ← Nat.shiftLeft_add_eq_or_of_lt (by omega), BitVec.toNat_append, ← Nat.shiftLeft_add_eq_or_of_lt (by omega)]
  simp only [Nat.shiftLeft_eq]
  omega

/-- `be32` is the big-endian value of its bytes (R149). -/
theorem be32_eq_bigEndian32 (a b c d : Byte) : be32 a b c d = bigEndian32 a b c d := by
  apply BitVec.eq_of_toNat_eq
  have := (be32 a b c d).isLt
  rw [bigEndian32, BitVec.toNat_ofNat, ← be32_toNat, Nat.mod_eq_of_lt this]

/-- Packing four bytes and taking them apart. -/
theorem wordBytes_be32 (a b c d : Byte) : wordBytes (be32 a b c d) = [a, b, c, d] := by
  have := a.isLt
  have := b.isLt
  have := c.isLt
  have := d.isLt
  have e (p : Nat) (k : Byte) (hk : (be32 a b c d).toNat / 2 ^ p % 256 = k.toNat) :
      (be32 a b c d).extractLsb' p 8 = k := by
    apply BitVec.eq_of_toNat_eq
    rw [BitVec.extractLsb'_toNat, Nat.shiftRight_eq_div_pow]
    exact hk
  rw [be32_toNat] at e
  unfold wordBytes
  rw [e 24 a (by omega), e 16 b (by omega), e 8 c (by omega), e 0 d (by omega)]

/-- PHDR2 on numbers (R132). -/
theorem phdr2Of_toNat (h : Half) : (phdr2Of h).toNat = 0x60000 + h.toNat := by
  unfold phdr2Of
  have := h.isLt
  rw [BitVec.toNat_append, ← Nat.shiftLeft_add_eq_or_of_lt this, Nat.shiftLeft_eq]; rfl

/-- A byte of a register as a number. -/
theorem registerByte (w : Word) (p : Nat) : w.extractLsb' p 8 = BitVec.ofNat 8 (w.toNat / 2 ^ p) := by
  apply BitVec.eq_of_toNat_eq; simp [BitVec.extractLsb'_toNat, Nat.shiftRight_eq_div_pow]

/-- The bytes of PHDR2 (R130). -/
theorem wordBytes_phdr2 (h : Half) :
    wordBytes (phdr2Of h) = [0x00, 0x06, BitVec.ofNat 8 (h.toNat / 256), BitVec.ofNat 8 h.toNat] := by
  have := h.isLt
  have e (p k : Nat) (hk : (0x60000 + h.toNat) / 2 ^ p % 256 = k % 256) :
      (phdr2Of h).extractLsb' p 8 = BitVec.ofNat 8 k := by
    rw [registerByte, phdr2Of_toNat]
    exact BitVec.eq_of_toNat_eq (by simpa using hk)
  unfold wordBytes
  rw [e 24 0 (by omega), e 16 6 (by omega), e 8 (h.toNat / 256) (by omega), e 0 h.toNat (by omega)]
  rfl

/-- The twelve bytes PHA feeds after PHB (R130, R132). -/
theorem phBytes_eq_pseudoHeader (a b : Word) (l : Half) :
    wordBytes a ++ wordBytes b ++ wordBytes (phdr2Of l) = pseudoHeader (wordBytes a) (wordBytes b) l.toNat := by
  rw [wordBytes_phdr2]; rfl

/-- The total length is 16 bits wide. -/
theorem totalLength_lt (f : Nat → Byte) : totalLength f < 65536 := by
  have := (f 16).isLt; have := (f 17).isLt
  unfold totalLength; omega

/-- The zeroed segment and the embedded checksum (R147, R148). -/
theorem frame_segment_eq (s : State) (hp : ParsePasses s.frameFn s.len.toNat) :
    zeroedSegment (frameSegment s.operandBytes) =
        (List.range (segmentLength s.frameFn)).map
          (fun k => if k = 16 ∨ k = 17 then 0 else s.frameFn (14 + headerLength s.frameFn + k)) ∧
    segmentChecksum (frameSegment s.operandBytes) = embeddedChecksum s.frameFn := by
  obtain ⟨h1, h2, h3, h4⟩ := hp
  obtain ⟨e1, e2⟩ := frame_header_eq s h1
  have hseg : frameSegment s.operandBytes = (List.range (segmentLength s.frameFn)).map
      fun k => s.frameFn (14 + headerLength s.frameFn + k) := by
    unfold frameSegment segmentLength
    rw [e1, e2]
    apply List.ext_getElem
    · simp [State.operandBytes]; omega
    · intro i hi hi'
      simp [State.operandBytes, State.frameFn]
  rw [hseg]
  constructor
  · unfold zeroedSegment
    apply List.ext_getElem
    · simp
    · intro i hi hi'
      simp only [List.getElem_set, List.getElem_map, List.getElem_range]
      by_cases h17 : 17 = i
      · simp [← h17]
      · by_cases h16 : 16 = i
        · simp [← h16]
        · rw [if_neg h17, if_neg h16, if_neg (by omega)]
  · have hl : 18 ≤ segmentLength s.frameFn := by unfold segmentLength; omega
    have gb : ∀ j, j < segmentLength s.frameFn → frameByte ((List.range (segmentLength s.frameFn)).map
        fun k => s.frameFn (14 + headerLength s.frameFn + k)) j = s.frameFn (14 + headerLength s.frameFn + j) := by
      intro j hj
      unfold frameByte
      rw [List.getD_eq_getElem _ _ (by simpa using hj)]; simp
    unfold segmentChecksum embeddedChecksum
    rw [gb _ (by omega), gb _ (by omega)]
    apply BitVec.eq_of_toNat_eq
    rw [be16_toNat]
    have := (s.frameFn (14 + headerLength s.frameFn + 16)).isLt
    have := (s.frameFn (14 + headerLength s.frameFn + 17)).isLt
    simp only [BitVec.toNat_ofNat]; omega

/-- A frame that passes the checks is not a parse failure. -/
theorem parseCheck_of_passes (s : State) (hp : ParsePasses s.frameFn s.len.toNat) : parseCheck s.operandBytes = none := by
  obtain ⟨h1, h2, h3, h4⟩ := hp
  obtain ⟨e1, e2⟩ := frame_header_eq s h1
  unfold parseCheck frameSeglen
  rw [operandBytes_length, e1, e2, if_neg (by omega), if_neg (by omega), if_neg (by omega), if_neg (by omega)]

/-- The TCP length of the pseudo-header (R149). -/
theorem frameSeglen_of_passes (s : State) (hp : ParsePasses s.frameFn s.len.toNat) :
    BitVec.ofInt 16 (frameSeglen s.operandBytes) = BitVec.ofNat 16 (segmentLength s.frameFn) := by
  obtain ⟨h1, h2, h3, h4⟩ := hp
  obtain ⟨e1, e2⟩ := frame_header_eq s h1
  unfold frameSeglen segmentLength
  rw [e1, e2, ← Nat.cast_sub (by omega), BitVec.ofInt_natCast]

/-- The stream VAL sums (R151). -/
theorem frameStream_of_passes (s : State) (hp : ParsePasses s.frameFn s.len.toNat) :
    frameStream s.operandBytes = validationStream s.frameFn := by
  have ht := totalLength_lt s.frameFn
  have hl : (BitVec.ofNat 16 (segmentLength s.frameFn)).toNat = segmentLength s.frameFn := by
    simp only [BitVec.toNat_ofNat, segmentLength]; omega
  have hf (i : Nat) (hi : i < 34) : frameByte s.operandBytes i = s.frameFn i :=
    frameByte_eq s i (Nat.lt_of_lt_of_le hi hp.1)
  unfold frameStream validationStream frameSource frameDestination
  rw [(frame_segment_eq s hp).1, frameSeglen_of_passes s hp, phBytes_eq_pseudoHeader, hl, wordBytes_be32, wordBytes_be32]
  simp only [hf, show (26 : Nat) < 34 by omega, show (27 : Nat) < 34 by omega, show (28 : Nat) < 34 by omega,
    show (29 : Nat) < 34 by omega, show (30 : Nat) < 34 by omega, show (31 : Nat) < 34 by omega,
    show (32 : Nat) < 34 by omega, show (33 : Nat) < 34 by omega]

/-- ... is 12 + seglen bytes long (R151). -/
theorem validationStream_length (f) : (validationStream f).length = 12 + segmentLength f := by
  simp [validationStream, pseudoHeader]; omega

end Sys2Proof.Machine
end

