-- ==== Sys2Proof/Laws/PerInstr.lean ====
section
/-! SUPPORT. What is proved of each command as syntax: the fields of its word (30_encoding.md R80, R82, R83), and that the word
decodes to it as the opcode table numbers its bits. -/

namespace Sys2Proof.Laws.EncodedFields

/-- The fields of a well-formed command's word, and that the word decodes to the command. -/
def Statement (i : Instr) : Prop :=
  WellFormed i →
    reservedField (encode i) = 0 ∧ opcodeField (encode i) = i.opcode ∧ countField (encode i) = i.count ∧
      decodeTableWord 32 (encode i).toNat = some i

theorem nop : Statement .nop := by unfold Statement; decide

theorem clr : Statement .clr := by unfold Statement; decide

theorem add : Statement .add := by unfold Statement; decide

theorem feed (n : BitVec 3) : Statement (.feed n) := by unfold Statement; revert n; decide

theorem fin : Statement .fin := by unfold Statement; decide

theorem phb : Statement .phb := by unfold Statement; decide

theorem pha : Statement .pha := by unfold Statement; decide

theorem val : Statement .val := by unfold Statement; decide

end Sys2Proof.Laws.EncodedFields
end

