-- ==== Sys2Proof/Laws/Run.lean ====
section
/-! SUPPORT. Runs: one step at a time, and what a step leaves at the port. -/

namespace Sys2Proof.Machine

@[simp] theorem run_zero (s : State) : run 0 s = .next s := rfl

theorem run_succ {s t : State} (n : Nat) (h : step s = .next t) :
    run (n + 1) s = run n t := by
  rw [run, h]

/-- Running `m + n` steps is running `m` and then `n`. -/
theorem run_add {s t : State} (m n : Nat) (h : run m s = .next t) :
    run (m + n) s = run n t := by
  induction m generalizing s with
  | zero => cases h; rw [Nat.zero_add]
  | succ m ih =>
    obtain ⟨u, hu⟩ := step_next s
    rw [run_succ m hu] at h
    rw [show m + 1 + n = (m + n) + 1 by omega, run_succ _ hu, ih h]

@[simp] theorem commandEffect_inbox (w : Word) (s : State) : (commandEffect w s).inbox = s.inbox := by
  unfold commandEffect; split <;> simp

@[simp] theorem accessEffect_inbox (s : State) (a : Access) : (accessEffect s a).inbox = s.inbox := by
  cases a <;> simp [accessEffect]

@[simp] theorem commandEffect_outbox (w : Word) (s : State) : (commandEffect w s).outbox = s.outbox := by
  unfold commandEffect; split <;> simp

@[simp] theorem accessEffect_outbox (s : State) (a : Access) : (accessEffect s a).outbox = s.outbox := by
  cases a <;> simp [accessEffect]

end Sys2Proof.Machine
end

