-- ==== Sys2Proof/Laws/StreamOf.lean ====
section
/-! SUPPORT. What ACC and PHASE hold for a stream (40_checksum_engine.md R109). -/

namespace Sys2Proof.Machine

/-- ACC accumulates the stream's word sum and PHASE is its parity (R109). -/
theorem StreamOf.accumulates {bs : List Byte} {s : State} (h : StreamOf bs s) :
    Accumulates s.acc.toNat (wordSum bs) ∧ s.phase = decide (bs.length % 2 = 1) := by
  induction h with
  | start s ha hp => rw [ha, hp]; exact ⟨⟨rfl, by simp, by simp⟩, rfl⟩
  | kept bs s t _ ha hp ih => rw [ha, hp]; exact ih
  | fed bs s t i hs hi he ih =>
    rw [exec_next_iff] at he; subst he
    rcases hi with rfl | rfl | ⟨n, rfl⟩
    · simp only [effect, fedBytes]
      split
      · exact State.feedBytes_accumulates ih.1 ih.2 _
      · simpa using ih
    · exact State.feedBytes_accumulates ih.1 ih.2 _
    · simp only [effect, fedBytes]
      split
      · exact State.feedBytes_accumulates ih.1 ih.2 _
      · simpa using ih

/-- A word-aligned piece splits the word sum. -/
theorem wordSum_append (xs ys : List Byte) (h : xs.length % 2 = 0) : wordSum (xs ++ ys) = wordSum xs + wordSum ys := by
  match xs with
  | [] => simp
  | [x] => simp at h
  | x :: x' :: rest =>
    rw [List.cons_append, List.cons_append, wordSum_cons_cons, wordSum_cons_cons,
        wordSum_append rest ys (by simp at h; omega)]
    omega

/-- FEED's bytes as numbers (R108). -/
theorem feedOperand_eq (n : Nat) (d : Word) :
    feedOperand n d = (List.range n).map fun i => BitVec.ofNat 8 (d.toNat / 2 ^ (8 * (n - 1 - i))) := by
  unfold feedOperand
  apply List.map_congr_left
  intro i _
  apply BitVec.eq_of_toNat_eq
  simp [BitVec.extractLsb'_toNat, Nat.shiftRight_eq_div_pow]

/-- One command of a sequence. -/
theorem execSeq_cons (i : Instr) (is : List Instr) (s : State) : execSeq (i :: is) s = execSeq is (effect i s) := by
  rw [execSeq, exec_eq_effect]

end Sys2Proof.Machine
end

