-- ==== Sys2Proof/Laws/Window.lean ====
section
/-! SUPPORT. Accesses to the register window and the buffer window at their offsets (20_memory.md R63 to R66), and the lanes of a
transfer (R64). -/

namespace Sys2Proof.Machine

/-! ## The register window -/

set_option maxRecDepth 4000 in
/-- The reserved slots (10_state.md R22). -/
theorem registerAt_eq_none_iff :
    ∀ off < 0x100, off % 4 = 0 → (registerAt off = none ↔ off = 0x3C ∨ 0x54 ≤ off) := by
  decide

/-- The read-only registers (R23, 60_exceptions.md R171 row 6). -/
theorem writeAccess_isNone (off : Nat) (r : RegName) (h : registerAt off = some r) (v : Word) :
    (r.writeAccess v).isNone =
      [0x00, 0x04, 0x1C, 0x20, 0x30, 0x34, 0x38, 0x40, 0x44, 0x48, 0x4C, 0x50].contains off := by
  unfold registerAt at h
  split at h <;> cases h <;> rfl

/-- A register offset fits its 17 bits. -/
theorem registerOffset_toNat (off : Nat) (h : off < 0x100) : (BitVec.ofNat 17 off).toNat = off := by
  rw [BitVec.toNat_ofNat, Nat.mod_eq_of_lt (by omega)]

/-- A 4-byte access to the slot of a register. -/
theorem route_slot (b : Nat) (w : Bool) {off : Nat} {r : RegName} (d : Word) (h : off < 0x100) (h4 : off % 4 = 0)
    (hr : registerAt off = some r) :
    route b ⟨w, BitVec.ofNat 17 off, 2, d⟩ =
      if w then (match r.writeAccess d with | none => .error .roWrite | some a => .ok a) else .ok (.readReg r) := by
  have e := registerOffset_toNat off h
  rw [route_register rfl (by rw [e]; exact h) (by rw [e]; exact h4)]
  unfold routeRegister
  dsimp only
  rw [if_neg (by decide), e, hr] <;> rfl

/-- A 4-byte read of a register. -/
theorem step_readRegister {s : State} {rest : List PortEvent} {d : Word} (off : Nat) (r : RegName) (h : off < 0x100)
    (h4 : off % 4 = 0) (hr : registerAt off = some r)
    (hi : s.inbox = .access ⟨false, BitVec.ofNat 17 off, 2, d⟩ :: rest) :
    step s = .next { s with inbox := rest, outbox := s.outbox ++ [.okay (s.readReg r)] } := by
  rw [step_ok hi (by rw [route_slot _ _ _ h h4 hr]; rfl)]
  cases r <;> rfl

/-- A 4-byte write of a register that takes it. -/
theorem step_writeRegister {s : State} {rest : List PortEvent} {v : Word} (off : Nat) (r : RegName) (a : Access)
    (h : off < 0x100) (h4 : off % 4 = 0) (hr : registerAt off = some r) (hw : r.writeAccess v = some a)
    (hi : s.inbox = .access ⟨true, BitVec.ofNat 17 off, 2, v⟩ :: rest) :
    step s = .next ((accessEffect (s.setInbox rest) a).respond (.okay (accessData (s.setInbox rest) a))) :=
  step_ok hi (by rw [route_slot _ _ _ h h4 hr, hw]; rfl)

/-! ## Lanes -/

/-- A lane as a number (R64). -/
theorem lane_eq (d : Word) (i : Nat) : lane d i = BitVec.ofNat 8 (d.toNat / 2 ^ (8 * i)) := by
  apply BitVec.eq_of_toNat_eq
  simp [lane, BitVec.extractLsb'_toNat, Nat.shiftRight_eq_div_pow]

/-- The transfer value of a read as a sum (R66). -/
theorem littleEndian_range (f : Nat → Byte) (n k : Nat) :
    littleEndian ((List.range n).map fun i => f (k + i)) = ∑ i ∈ Finset.range n, (f (k + i)).toNat * 2 ^ (8 * i) := by
  induction n generalizing k with
  | zero => rfl
  | succ n ih =>
    have e : (fun i => f (k + i)) ∘ Nat.succ = fun i => f (k + 1 + i) := by
      funext i
      simp [Nat.add_assoc, Nat.add_comm 1 i]
    rw [List.range_succ_eq_map, Finset.sum_range_succ']
    simp only [List.map_cons, List.map_map, littleEndian]
    rw [e, ih, Finset.mul_sum, Nat.add_comm]
    congr 1
    · apply Finset.sum_congr rfl
      intro i _
      rw [show k + 1 + i = k + (i + 1) by omega, show 8 * (i + 1) = 8 * i + 8 by ring, pow_add]
      ring
    · simp

/-- The lane a byte write carries. -/
theorem lane_setWidth (b : Byte) : lane (b.setWidth 32) 0 = b := by
  rw [lane_eq]
  apply BitVec.eq_of_toNat_eq
  have := b.isLt
  simp
  omega

/-- The lanes a merged write carries (30_encoding.md R89). -/
theorem lane_append (b0 b1 b2 b3 : Byte) :
    lane (b3 ++ b2 ++ b1 ++ b0) 0 = b0 ∧ lane (b3 ++ b2 ++ b1 ++ b0) 1 = b1 ∧ lane (b3 ++ b2 ++ b1 ++ b0) 2 = b2 ∧
      lane (b3 ++ b2 ++ b1 ++ b0) 3 = b3 := by
  refine ⟨?_, ?_, ?_, ?_⟩ <;>
  · apply BitVec.eq_of_getLsbD_eq
    intro i hi
    have h8 : i < 8 := hi
    simp only [lane, BitVec.getLsbD_extractLsb', BitVec.getLsbD_append, h8, decide_true, Bool.true_and]
    repeat (first | rw [if_pos (by omega)] | rw [if_neg (by omega)])
    congr 1
    omega

/-! ## The buffer window -/

/-- A buffer offset fits its 17 bits. -/
theorem bufferOffset_toNat (a : Nat) (h : a < 65536) : (BitVec.ofNat 17 (0x10000 + a)).toNat = 0x10000 + a := by
  rw [BitVec.toNat_ofNat, Nat.mod_eq_of_lt (by omega)]

/-- The buffer window is aligned to every size. -/
theorem window_aligned : ∀ code : BitVec 2, code ≠ 3 → 0x10000 % 2 ^ code.toNat = 0 := by
  decide

/-- An aligned access inside the buffer is taken (R66). -/
theorem route_bufferAccess (b : Nat) (w : Bool) (code : BitVec 2) (a : Nat) (d : Word) (hc : code ≠ 3)
    (ha : a % 2 ^ code.toNat = 0) (hb : a < b) (hb2 : b ≤ 65536) :
    route b ⟨w, BitVec.ofNat 17 (0x10000 + a), code, d⟩ =
      .ok (if w then .writeBuffer a (laneBytes (2 ^ code.toNat) d) else .readBuffer a (2 ^ code.toNat)) := by
  have hs : sizeBytes code = some (2 ^ code.toNat) := by rw [sizeBytes_eq, if_neg hc]
  have hd := window_aligned code hc
  have e := bufferOffset_toNat a (by omega)
  have hle : 0x10000 ≤ (BitVec.ofNat 17 (0x10000 + a)).toNat := by rw [e]; exact Nat.le_add_right _ _
  have hal : (BitVec.ofNat 17 (0x10000 + a)).toNat % 2 ^ code.toNat = 0 := by rw [e, Nat.add_mod, hd, ha]; simp
  rw [route_buffer (n := 2 ^ code.toNat) hs hle hal]
  unfold routeBuffer
  simp only
  rw [e, Nat.add_sub_cancel_left, if_neg (by omega)]
  split <;> rfl

/-- A write to the buffer (R66). -/
theorem step_writeBuf (s : State) (code : BitVec 2) (a : Nat) (d : Word) (rest : List PortEvent) (hc : code ≠ 3)
    (ha : a % 2 ^ code.toNat = 0) (hb : a < s.bufBytes) (hb2 : s.bufBytes ≤ 65536)
    (hi : s.inbox = .access (writeBuf code a d) :: rest) :
    ∃ t, step s = .next t ∧ t.inbox = rest ∧ t.bufBytes = s.bufBytes ∧
      ∀ c, t.byteAt c = if a ≤ c ∧ c < a + 2 ^ code.toNat then lane d (c - a) else s.byteAt c := by
  refine ⟨_, step_ok hi (by unfold writeBuf; rw [route_bufferAccess _ _ _ _ _ hc ha hb hb2]), rfl, rfl, ?_⟩
  intro c
  show ((s.setInbox rest).memWrite a (laneBytes (2 ^ code.toNat) d)).byteAt c = _
  rw [State.byteAt_memWrite]
  simp only [laneBytes, List.length_map, List.length_range, List.getElem_map, List.getElem_range]
  by_cases h : a ≤ c ∧ c < a + 2 ^ code.toNat
  · rw [dif_pos ⟨h.1, by omega⟩, if_pos h]
  · rw [dif_neg (by omega), if_neg h]; rfl

end Sys2Proof.Machine
end

