-- ==== Sys2Proof/Tests/Slice0.lean ====
section
/-! SUPPORT. The model's own tests: words written out from the spec's encodings, one step of the spec's test vectors
(95_test_vectors.md), and for every obligation with hypotheses a state that meets them. -/

namespace Sys2Proof.Tests

open Sys2Proof.Machine

/-! ## Well-formedness (30_encoding.md R83) -/

theorem test_wellFormed_feed_0 : ¬ WellFormed (.feed 0) := by decide
theorem test_wellFormed_feed_5 : ¬ WellFormed (.feed 5) := by decide
theorem test_wellFormed_feed_6 : ¬ WellFormed (.feed 6) := by decide
theorem test_wellFormed_feed_7 : ¬ WellFormed (.feed 7) := by decide
theorem test_wellFormed_feed_legal : WellFormed (.feed 1) ∧ WellFormed (.feed 4) := by decide

/-! ## Decoding: the words of 30_encoding.md R82, bit by bit as RSV, N, OPC -/

theorem test_decode_nop : decode 0b000000000000000000000_000_00000000 = .ok .nop := by decide
theorem test_decode_clr : decode 0b000000000000000000000_000_00000001 = .ok .clr := by decide
theorem test_decode_add : decode 0b000000000000000000000_000_00000010 = .ok .add := by decide
theorem test_decode_feed_1 : decode 0b000000000000000000000_001_00000011 = .ok (.feed 1) := by decide
theorem test_decode_feed_2 : decode 0b000000000000000000000_010_00000011 = .ok (.feed 2) := by decide
theorem test_decode_feed_3 : decode 0b000000000000000000000_011_00000011 = .ok (.feed 3) := by decide
theorem test_decode_feed_4 : decode 0b000000000000000000000_100_00000011 = .ok (.feed 4) := by decide
theorem test_decode_fin : decode 0b000000000000000000000_000_00000100 = .ok .fin := by decide
theorem test_decode_phb : decode 0b000000000000000000000_000_00000101 = .ok .phb := by decide
theorem test_decode_pha : decode 0b000000000000000000000_000_00000110 = .ok .pha := by decide
theorem test_decode_val : decode 0b000000000000000000000_000_00000111 = .ok .val := by decide

/-- V-CMD-1 to V-CMD-8. -/
theorem test_decode_illegal :
    decode 0x00000008 = .error .reservedOpcode ∧ decode 0x000000FF = .error .reservedOpcode ∧
      decode 0x00000003 = .error .feedCount ∧ decode 0x00000503 = .error .feedCount ∧
      decode 0x00000703 = .error .feedCount ∧ decode 0x00000101 = .error .strayCount ∧
      decode 0x00000800 = .error .reservedBits ∧ decode 0x80000001 = .error .reservedBits := by decide

theorem test_encode :
    [encode .nop, encode .clr, encode .add, encode (.feed 1), encode (.feed 4), encode .fin, encode .phb, encode .pha,
      encode .val] = [0x000, 0x001, 0x002, 0x103, 0x403, 0x004, 0x005, 0x006, 0x007] := by decide

theorem test_decodeTableWord :
    decodeTableWord 32 0x00000403 = some (.feed 4) ∧ decodeTableWord 32 0x00000003 = none ∧
      decodeTableWord 64 0x100000001 = none := by decide

/-! ## States to test with -/

/-- The state a step answers, if it answers one. -/
def next? : Host.Outcome State Fault Refusal → Option State
  | .next s => some s
  | .fault _ => none
  | .refused _ => none

/-- One field of the state `exec` answers. -/
def after {α : Type} (f : State → α) (i : Instr) (s : State) : Option α := (next? (exec i s)).map f

/-- The reset state with bytes written from offset 0 on, and ADDR and LEN. -/
def withBytes (bytes : List Byte) (addr len : Word) : State :=
  { State.reset.memWrite 0 bytes with addr := addr, len := len }

/-- The frame of V-VAL-12: the first 52 bytes of the source's fixture (42_validator.md R155), with total length 38. -/
def frame : List Byte :=
  [0x52, 0x55, 0x0a, 0x00, 0x02, 0x02, 0x52, 0x54, 0x00, 0x12, 0x34, 0x56, 0x08, 0x00] ++
  [0x45, 0x00, 0x00, 0x26, 0x00, 0x00, 0x00, 0x00, 0x64, 0x06, 0x3e, 0xad] ++
  [0x0a, 0x00, 0x02, 0x0f, 0x0a, 0x00, 0x02, 0x02] ++
  [0x07, 0xd0, 0x65, 0xf3, 0x00, 0x00, 0x41, 0xa7, 0x00, 0x00, 0xfa, 0x02, 0x50, 0x18, 0xff, 0xff, 0xee, 0x4e]

/-- The frame at offset 0, ready for VAL. -/
def framed : State := withBytes frame 0 52

/-- The frame with one byte changed. -/
def framedWith (i : Nat) (b : Byte) : State := { framed with buf := framed.buf.insert i b }

/-! ## One step of the spec's vectors -/

/-- V-ENG-24. -/
theorem test_nop : after (fun t => (t.acc, t.phase, t.result)) .nop { State.reset with acc := 0x1234, result := 0x5678 } =
    some (0x1234, false, 0x5678) := by decide

/-- V-ENG-23. -/
theorem test_clr : after (fun t => (t.acc, t.phase)) .clr { State.reset with acc := 0x0002FFFF, phase := true } =
    some (0, false) := by decide

/-- The example of 40_checksum_engine.md R106. -/
theorem test_add : after (fun t => (t.acc, t.phase)) .add (withBytes [0x01, 0x02, 0x03] 0 3) =
    some (0x00000402, true) := by decide

/-- V-ENG-17: an odd ADDR. -/
theorem test_add_odd : after (fun t => (t.acc, t.phase)) .add (withBytes [0x01, 0x02, 0x03, 0x04] 1 2) =
    some (0x00000203, false) := by decide

/-- V-ENG-15. -/
theorem test_feed_4 : after (fun t => (t.acc, t.phase)) (.feed 4) { State.reset with data := 0x0A00020F } =
    some (0x00000C0F, false) := by decide

/-- V-ENG-14: the end-around carry. -/
theorem test_feed_carry :
    after (fun t => (t.acc, t.phase)) (.feed 2) { State.reset with acc := 0xFFFFFF00, data := 0xFF00 } =
      some (0x0000FE01, false) := by decide

/-- V-ENG-9: the second fold carries. -/
theorem test_fin_second_fold : after (fun t => (t.result, t.acc)) .fin { State.reset with acc := 0x0002FFFF } =
    some (0xFFFD, 0x0002FFFF) := by decide

/-- V-ENG-11: 0x0000 is kept. -/
theorem test_fin_zero : after (fun t => t.result) .fin { State.reset with acc := 0x0000FFFF } = some 0 := by decide

/-- V-PH-1. -/
theorem test_phb : after (fun t => (t.phdr0, t.phdr1, t.phdr2)) .phb
    { State.reset with phSrc := 0x0A00020F, phDst := 0x0A000202, phLen := 39 } =
      some (0x0A00020F, 0x0A000202, 0x00060027) := by decide

/-- V-PH-2. -/
theorem test_pha : after (fun t => (t.acc, t.phase)) .pha
    { State.reset with phdr0 := 0x0A00020F, phdr1 := 0x0A000202, phdr2 := 0x00060027 } =
      some (0x0000183E, false) := by decide

/-- V-PH-3: the open byte shifts the pairing. -/
theorem test_pha_odd : after (fun t => (t.acc, t.phase)) .pha
    { State.reset with phase := true, phdr0 := 0x0A00020F, phdr1 := 0x0A000202, phdr2 := 0x00060027 } =
      some (0x00003E18, true) := by decide

set_option maxRecDepth 4000 in
/-- V-VAL-12: the shortest legal segment. -/
theorem test_val_mismatch :
    after (fun t => [t.verdict.word, t.readReg .V_IHL, t.readReg .V_TOTLEN, t.readReg .V_EMB, t.readReg .V_CMP, t.acc,
        t.statusWord, t.phdr2]) .val framed =
      some [0x02, 20, 38, 0xEE4E, 0xEE50, 0x000311AC, 0, 0x00060012] := by decide

/-- V-VAL-13: a negative segment length. -/
theorem test_val_seg_short : after (fun t => (t.verdict.word, t.vTotlen)) .val (framedWith 14 0x4F) =
    some (0x43, 0) := by decide

/-- V-CMD-10: the range check does not wrap. -/
theorem test_range_no_wrap :
    after (fun t => (t.statusWord, t.acc)) .add { State.reset with acc := 0x1234, addr := 0xFFFFFFFF, len := 1 } =
      some (0x2, 0x1234) := by decide

/-- The response to the next transaction, from the reset state. -/
def respond (w : Bool) (off : BitVec 17) (size : BitVec 2) (d : Word) (s : State) : Option (List Response) :=
  (next? (step (s.setInbox [.access ⟨w, off, size, d⟩]))).map fun t => t.outbox

/-- V-BUS-1, V-BUS-2. -/
theorem test_bus_read : respond false 0x00000 2 0 State.reset = some [.okay 0x43530100] ∧
    respond false 0x00004 2 0 State.reset = some [.okay 0x00000800] := by decide

/-- V-BUS-4, V-BUS-5, V-BUS-8, V-BUS-10. -/
theorem test_bus_errors_register : respond true 0x0001C 2 1 State.reset = some [.err .roWrite] ∧
    respond true 0x00008 1 1 State.reset = some [.err .regWidth] ∧
    respond false 0x0003C 2 0 State.reset = some [.err .reservedSlot] ∧
    respond false 0x0FFFC 2 0 State.reset = some [.err .reservedRegion] := by decide

/-- V-BUS-11, V-BUS-14, V-BUS-17. -/
theorem test_bus_errors_buffer : respond false 0x10000 3 0 State.reset = some [.err .badSize] ∧
    respond true 0x10001 1 0xABCD State.reset = some [.err .misaligned] ∧
    respond false 0x10800 0 0 State.reset = some [.err .bufRange] := by decide

/-- V-BUS-12. -/
theorem test_bus_lanes : respond false 0x10002 0 0 (withBytes [1, 2, 3, 4] 0 0) = some [.okay 0x03] ∧
    respond false 0x10002 1 0 (withBytes [1, 2, 3, 4] 0 0) = some [.okay 0x0403] ∧
    respond false 0x10000 2 0 (withBytes [1, 2, 3, 4] 0 0) = some [.okay 0x04030201] := by decide

/-- V-BUS-12: the write. -/
theorem test_bus_write : (next? (step (State.reset.setInbox [.access ⟨true, 0x10000, 2, 0x04030201⟩]))).map
    (fun t => t.buf) = some [(0, 1), (1, 2), (2, 3), (3, 4)] := by decide

/-- V-BUS-19. -/
theorem test_bus_status : (next? (step ({ State.reset with errCmd := true, errRange := true, phase := true }.setInbox
    [.access ⟨true, 0x0000C, 2, 1⟩]))).map (fun t => t.readReg .STATUS) = some 0x00000102 := by decide

/-- V-CMD-6: CLR with N = 1 is not CLR. -/
theorem test_illegal_clr : (next? (step ({ State.reset with acc := 0x1234 }.withFetchWord 32 0x101))).map
    (fun t => (t.acc, t.statusWord)) = some (0x1234, 1) := by decide

/-- A command runs as the first step after reset: FIN gives the checksum of the empty stream (V-SRC-1). -/
theorem test_first_step : (next? (step (State.reset.withFetchWord 32 0x4))).map (fun t => (t.result, t.outbox)) =
    some (0xFFFF, [.okay 0]) := by decide

theorem test_reset_memory : State.reset.buf.wf = true ∧ State.reset.buf.inside State.reset.bufBytes = true := by decide

/-! ## Witnesses: the hypotheses of each obligation can be met -/

/-- A state with one transaction at the port. -/
def presenting (t : Transaction) : State := State.reset.setInbox [.access t]

/-- A state at which a reset is the next event, with a transaction cut. -/
def resetting : State :=
  { State.reset with acc := 5, verdict := .mismatched, inbox := [.reset (some (readRegAt .ID)), .access (readRegAt .ID)] }

/-- IllegalWordsRaiseCmdError, StepRunsTheDecodedCommand: a CMD write, of an illegal word of each kind and of a legal one. -/
theorem witness_commandWrite :
    (presenting (writeReg .CMD 0x800)).inbox = commandWrite 0x800 :: [] ∧ IllegalCommand 0x800 ∧ IllegalCommand 0x08 ∧
      IllegalCommand 0x503 ∧ IllegalCommand 0x003 ∧ IllegalCommand 0x101 ∧ ¬ IllegalCommand 0x403 ∧
      decode 0x403 = .ok (.feed 4) := by decide

theorem witness_StepRunsTheDecodedCommand :
    WellFormed (.feed 4) ∧ ∃ t, exec (.feed 4) State.reset = .next t := ⟨by decide, _, rfl⟩

theorem witness_IdleBlockKeepsItsState : State.reset.inbox = [] := rfl

theorem witness_NopChangesNothing : (0x100 : Word).toNat % 256 = 0 ∧ (0x100 : Word) ≠ 0 := by decide

theorem witness_ClrClearsTheStream : (0x101 : Word).toNat % 256 = 1 ∧ (0x101 : Word) ≠ 1 := by decide

/-- AddStreamsTheRange, BuilderComputesTheTcpChecksum, ValOutOfRangeIsACommandError: the range ends at BUF_BYTES, is empty there,
and passes it by one. -/
theorem witness_InRange :
    (withBytes [] 2000 48).InRange ∧ (withBytes [] 2048 0).InRange ∧ ¬ (withBytes [] 2000 49).InRange ∧
      ¬ (withBytes [] 0xFFFFFFFF 1).InRange := by decide

theorem witness_FeedStreamsDataBytes :
    (1 ≤ (1 : BitVec 3).toNat ∧ (1 : BitVec 3).toNat ≤ 4) ∧ (1 ≤ (4 : BitVec 3).toNat ∧ (4 : BitVec 3).toNat ≤ 4) ∧
      ¬ (1 ≤ (0 : BitVec 3).toNat ∧ (0 : BitVec 3).toNat ≤ 4) ∧ ¬ (1 ≤ (5 : BitVec 3).toNat ∧ (5 : BitVec 3).toNat ≤ 4) := by
  decide

theorem witness_FoldKeepsTheResidue :
    (0x0002FFFF : Word).toNat / 65536 + (0x0002FFFF : Word).toNat % 65536 = 0x10001 := by decide

/-- A state with an empty stream and DATA to feed. -/
def feeding (d : Word) : State := { State.reset with data := d }

/-- A stream of two bytes, fed by FEED from an empty one. -/
theorem streamOf_two (d : Word) :
    StreamOf (feedOperand 2 d) ((feeding d).feedBytes (feedOperand 2 d)) :=
  .fed [] (feeding d) _ (.feed 2) (.start _ rfl rfl) (.inr (.inr ⟨2, rfl⟩)) rfl

/-- A stream of one byte. -/
theorem streamOf_one (d : Word) :
    StreamOf (feedOperand 1 d) ((feeding d).feedBytes (feedOperand 1 d)) :=
  .fed [] (feeding d) _ (.feed 1) (.start _ rfl rfl) (.inr (.inr ⟨1, rfl⟩)) rfl

/-- A stream of four bytes. -/
theorem streamOf_four (d : Word) :
    StreamOf (feedOperand 4 d) ((feeding d).feedBytes (feedOperand 4 d)) :=
  .fed [] (feeding d) _ (.feed 4) (.start _ rfl rfl) (.inr (.inr ⟨4, rfl⟩)) rfl

/-- FinGivesComputeOfTheStream, StreamsConcatenate, PaddingKeepsTheChecksum: the empty stream, an odd and an even one, each with
its padded form. -/
theorem witness_StreamOf :
    (∃ s t, StreamOf [] s ∧ exec .fin s = .next t) ∧
      (∃ s s' t t', StreamOf [0xAB] s ∧ StreamOf ([0xAB] ++ [0]) s' ∧ exec .fin s = .next t ∧ exec .fin s' = .next t') ∧
      (∃ s s' t t', StreamOf [0x12, 0x34] s ∧ StreamOf ([0x12, 0x34] ++ [0, 0]) s' ∧ exec .fin s = .next t ∧
        exec .fin s' = .next t') ∧
      wordSum [0x12, 0x34] < 2 ^ 32 :=
  ⟨⟨State.reset, _, .start _ rfl rfl, rfl⟩, ⟨_, _, _, _, streamOf_one 0xAB, streamOf_two 0xAB00, rfl, rfl⟩,
    ⟨_, _, _, _, streamOf_two 0x1234, streamOf_four 0x12340000, rfl, rfl⟩, by decide⟩

/-- AddInPiecesIsAddAtOnce: two odd pieces up to the end of the buffer. -/
theorem witness_AddInPiecesIsAddAtOnce :
    2040 + 3 + 5 ≤ State.reset.bufBytes ∧ State.reset.bufBytes ≤ 65536 := by decide

/-- ChecksumVerifiesToZero: the stream [0, 0, 0x12, 0x34], whose checksum is 0xEDCB (V-ENG-6). -/
theorem witness_ChecksumVerifiesToZero :
    ∃ s s' t t', StreamOf (([] : List Byte) ++ [0, 0] ++ [0x12, 0x34]) s ∧ exec .fin s = .next t ∧ t.result = 0xEDCB ∧
      StreamOf ([] ++ [BitVec.ofNat 8 (t.result.toNat / 256), BitVec.ofNat 8 (t.result.toNat % 256)] ++ [0x12, 0x34]) s' ∧
      exec .fin s' = .next t' :=
  ⟨_, _, _, _, streamOf_four 0x00001234, rfl, by decide, streamOf_four 0xEDCB1234, rfl⟩

/-- WordOrderAndByteSwap: two words, their exchange and their byte swap. -/
theorem witness_WordOrderAndByteSwap :
    ∃ (ws ws' : List (Byte × Byte)) (s s' s'' t t' t'' : State), ws ≠ ws' ∧ ws.Perm ws' ∧
      StreamOf (ws.flatMap fun w => [w.1, w.2]) s ∧ StreamOf (ws'.flatMap fun w => [w.1, w.2]) s' ∧
      StreamOf (ws.flatMap fun w => [w.2, w.1]) s'' ∧ exec .fin s = .next t ∧ exec .fin s' = .next t' ∧
      exec .fin s'' = .next t'' :=
  ⟨[(1, 2), (3, 4)], [(3, 4), (1, 2)], _, _, _, _, _, _, by decide, List.Perm.swap _ _ _, streamOf_four 0x01020304,
    streamOf_four 0x03040102, streamOf_four 0x02010403, rfl, rfl, rfl⟩

theorem witness_PhaAddsSixWords :
    State.reset.phase = false ∧ State.reset.phdr0 = 0 ∧ State.reset.phdr1 = 0 ∧ State.reset.phdr2 = 0 := by decide

/-- ValParseFailureReportsTheFirstReason: each clause at its boundary (V-VAL-4, V-VAL-5, V-VAL-9, V-VAL-11, V-VAL-14). -/
theorem witness_ParseFailures :
    (withBytes frame 0 33).len.toNat < 34 ∧ 14 + totalLength (withBytes frame 0 51).frameFn > 51 ∧
      headerLength (framedWith 14 0x44).frameFn < 20 ∧
      (totalLength (framedWith 17 0x25).frameFn : Int) - headerLength (framedWith 17 0x25).frameFn = 17 ∧
      (totalLength (framedWith 17 0x00).frameFn : Int) - headerLength (framedWith 17 0x00).frameFn < 0 ∧
      framed.InRange := by decide

/-- ValComputesTheTcpChecksum: the shortest frame that passes the checks (V-VAL-12). -/
theorem witness_ParsePasses : framed.InRange ∧ ParsePasses framed.frameFn framed.len.toNat := by decide

/-- ValDependsOnTheFrameAlone: two different states, the same frame. -/
theorem witness_ValDependsOnTheFrameAlone :
    let other : State := { framed with acc := 7, phase := true, result := 9, verdict := .matched, phdr0 := 3 }
    framed ≠ other ∧ framed.InRange ∧ other.InRange ∧ framed.len = other.len ∧
      ∀ i < framed.len.toNat, framed.frameFn i = other.frameFn i :=
  ⟨by decide, by decide, by decide, rfl, fun _ _ => rfl⟩

/-- Changing one byte of the frame leaves the others. -/
theorem frameFn_framedWith (j i : Nat) (b : Byte) (h : i ≠ j) : framed.frameFn i = (framedWith j b).frameFn i := by
  have e : framed.addr.toNat + i = i := by simp [framed, withBytes]
  show framed.byteAt (framed.addr.toNat + i) = (framedWith j b).byteAt (framed.addr.toNat + i)
  rw [e]
  unfold State.byteAt framedWith
  rw [Memory.find?_insert, if_neg h]

/-- ValIgnoresTheOtherFields: byte 23, the IP protocol field (V-VAL-18). -/
theorem witness_ValIgnoresTheOtherFields :
    framed.frameFn 23 ≠ (framedWith 23 0x11).frameFn 23 ∧ framed.InRange ∧ (framedWith 23 0x11).InRange ∧
      ParsePasses framed.frameFn framed.len.toNat ∧ 14 + totalLength framed.frameFn ≤ (framedWith 23 0x11).len.toNat ∧
      34 ≤ (framedWith 23 0x11).len.toNat ∧
      (framed.frameFn 14).toNat % 16 = ((framedWith 23 0x11).frameFn 14).toNat % 16 ∧
      framed.frameFn 16 = (framedWith 23 0x11).frameFn 16 ∧ framed.frameFn 17 = (framedWith 23 0x11).frameFn 17 ∧
      (∀ i, 26 ≤ i → i < 34 → framed.frameFn i = (framedWith 23 0x11).frameFn i) ∧
      ∀ i, 14 + headerLength framed.frameFn ≤ i → i < 14 + totalLength framed.frameFn →
        framed.frameFn i = (framedWith 23 0x11).frameFn i := by
  have h20 : headerLength framed.frameFn = 20 := by decide
  exact ⟨by decide, by decide, by decide, by decide, by decide, by decide, by decide, by decide, by decide,
    fun i h _ => frameFn_framedWith 23 i _ (by omega), fun i h _ => frameFn_framedWith 23 i _ (by omega)⟩

/-- The frame with 0xEE50, V_CMP of V-VAL-12, in its checksum field. -/
def corrected : State := { framed with buf := (framed.buf.insert 50 0xEE).insert 51 0x50 }

set_option maxRecDepth 4000 in
/-- ValCorrectedFrameMatches. -/
theorem witness_ValCorrectedFrameMatches :
    ∃ t1, framed.InRange ∧ ParsePasses framed.frameFn framed.len.toNat ∧ exec .val framed = .next t1 ∧
      corrected.addr = framed.addr ∧ corrected.len = framed.len ∧ corrected.bufBytes = framed.bufBytes ∧
      (∀ i, i ≠ 14 + headerLength framed.frameFn + 16 → i ≠ 14 + headerLength framed.frameFn + 17 →
        corrected.frameFn i = framed.frameFn i) ∧
      corrected.frameFn (14 + headerLength framed.frameFn + 16) = BitVec.ofNat 8 (t1.vCmp.toNat / 256) ∧
      corrected.frameFn (14 + headerLength framed.frameFn + 17) = BitVec.ofNat 8 (t1.vCmp.toNat % 256) := by
  refine ⟨_, by decide, by decide, execVal_of_inRange framed (by decide), rfl, rfl, rfl, ?_, by decide, by decide⟩
  have h : headerLength framed.frameFn = 20 := by decide
  intro i h1 h2
  have e : framed.addr.toNat + i = i := by simp [framed, withBytes]
  show corrected.byteAt (framed.addr.toNat + i) = framed.byteAt (framed.addr.toNat + i)
  rw [e]
  unfold State.byteAt corrected
  rw [Memory.find?_insert, Memory.find?_insert, if_neg (by omega), if_neg (by omega)]

/-- CommandsWriteOnlyTheirState: a parse failure, and a range that leaves the buffer. -/
theorem witness_CommandsWriteOnlyTheirState :
    WellFormed .val ∧ (∃ t, exec .val (framedWith 14 0x44) = .next t) ∧
      after (fun t => t.verdict) .val (framedWith 14 0x44) = some (.parseFail .ihlLt20) ∧
      ¬ (withBytes [] 2000 73).InRange :=
  ⟨by decide, ⟨_, exec_eq_effect _ _⟩, by decide, by decide⟩

theorem witness_CommandsDoNotReadStatus : framed.InRange := by decide

/-- BusErrorsFollowTheTable: each row of the table, and no row. -/
theorem witness_BusErrorsFollowTheTable :
    firstBusError 2048 ⟨false, 0x10000, 3, 0⟩ = some .badSize ∧
      firstBusError 2048 ⟨false, 0x100, 2, 0⟩ = some .reservedRegion ∧
      firstBusError 2048 ⟨false, 0x2, 2, 0⟩ = some .misaligned ∧
      firstBusError 2048 ⟨false, 0x2, 1, 0⟩ = some .regWidth ∧
      firstBusError 2048 ⟨false, 0x54, 2, 0⟩ = some .reservedSlot ∧
      firstBusError 2048 ⟨true, 0x50, 2, 0⟩ = some .roWrite ∧
      firstBusError 2048 ⟨false, 0x10800, 2, 0⟩ = some .bufRange ∧
      firstBusError 2048 ⟨false, 0x107FC, 2, 0⟩ = none ∧
      (presenting ⟨false, 0x10800, 2, 0⟩).inbox = .access ⟨false, 0x10800, 2, 0⟩ :: [] := by decide

/-- ReadsReturnTheRegisters, OperandWritesStoreTheData, StatusWriteClearsOnOne: such transactions at the port. -/
theorem witness_registerAccess :
    (presenting ⟨false, BitVec.ofNat 17 0x50, 2, 1⟩).inbox = .access ⟨false, BitVec.ofNat 17 0x50, 2, 1⟩ :: [] ∧
      (presenting ⟨true, BitVec.ofNat 17 0x2C, 2, 1⟩).inbox = .access ⟨true, BitVec.ofNat 17 0x2C, 2, 1⟩ :: [] ∧
      (presenting ⟨true, 0x0C, 2, 3⟩).inbox = .access ⟨true, 0x0C, 2, 3⟩ :: [] := ⟨rfl, rfl, rfl⟩

/-- BufferAccessMovesTheBytes: the last bytes of the buffer, read and written at each size. -/
theorem witness_BufferAccessMovesTheBytes :
    ((0 : BitVec 2) ≠ 3 ∧ 2047 % 2 ^ (0 : BitVec 2).toNat = 0 ∧ 2047 < State.reset.bufBytes) ∧
      ((1 : BitVec 2) ≠ 3 ∧ 2046 % 2 ^ (1 : BitVec 2).toNat = 0 ∧ 2046 < State.reset.bufBytes) ∧
      ((2 : BitVec 2) ≠ 3 ∧ 2044 % 2 ^ (2 : BitVec 2).toNat = 0 ∧ 2044 < State.reset.bufBytes) ∧
      State.reset.bufBytes ≤ 65536 ∧
      (presenting ⟨true, BitVec.ofNat 17 (0x10000 + 2044), 2, 1⟩).inbox =
        .access ⟨true, BitVec.ofNat 17 (0x10000 + 2044), 2, 1⟩ :: [] ∧
      (presenting ⟨false, BitVec.ofNat 17 (0x10000 + 2044), 2, 1⟩).inbox =
        .access ⟨false, BitVec.ofNat 17 (0x10000 + 2044), 2, 1⟩ :: [] := by decide

/-- BufferEdgeIsAnError: the last word of the buffer and the first past it. -/
theorem witness_BufferEdgeIsAnError :
    Config.LegalBufBytes State.reset.bufBytes ∧
      (0x10000 ≤ (0x10800 : BitVec 17).toNat ∧ (2 : BitVec 2) ≠ 3 ∧ State.reset.bufBytes ≤ 0x800 + 0) ∧
      (0x10000 ≤ (0x107FC : BitVec 17).toNat ∧ (0x107FC : BitVec 17).toNat % 2 ^ (2 : BitVec 2).toNat = 0 ∧
        ∀ i < 2 ^ (2 : BitVec 2).toNat, 0x7FC + i < State.reset.bufBytes) := by decide

theorem witness_ReadsAreIdempotent :
    ∃ s : State, s.inbox = .access (readRegAt .ACC) :: .access (readRegAt .ACC) :: [] ∧ (readRegAt .ACC).write = false :=
  ⟨State.reset.setInbox [.access (readRegAt .ACC), .access (readRegAt .ACC)], rfl, rfl⟩

/-- ApertureHoldsTheOffsets: the first and the last offset, and the address past the aperture. -/
theorem witness_ApertureHoldsTheOffsets :
    (∃ k < 0x20000, Config.blockBase = Config.blockBase + k) ∧
      (∃ k < 0x20000, Config.blockBase + 0x1FFFF = Config.blockBase + k) ∧
      ∀ k < 0x20000, Config.blockBase + 0x20000 ≠ Config.blockBase + k :=
  ⟨⟨0, by omega, rfl⟩, ⟨0x1FFFF, by omega, rfl⟩, fun k h e => by omega⟩

/-- MergedLoadEqualsByteLoad, HostProgramReadsTheChecksum: bytes up to the end of the buffer. -/
theorem witness_loads :
    State.reset.inbox = [] ∧ State.reset.bufBytes ≤ 65536 ∧ 2043 + [1, 2, 3, 4, 5].length ≤ State.reset.bufBytes := by decide

/-- ResetSetsEveryRegister, ResetRedrawsTheBuffer, FinAfterResetIsTheEmptyChecksum: a reset that cuts a transaction. -/
theorem witness_reset :
    resetting.inbox = .reset (some (readRegAt .ID)) :: [.access (readRegAt .ID)] ∧ ∃ t, step resetting = .next t :=
  ⟨rfl, _, rfl⟩

/-- PortDrainsWithOneResponseEach: a transaction first, and a reset first, each with an event behind it. -/
theorem witness_PortDrainsWithOneResponseEach :
    (State.reset.setInbox [.access (readRegAt .ACC), .reset none]).inbox = .access (readRegAt .ACC) :: [.reset none] ∧
      resetting.inbox = .reset (some (readRegAt .ID)) :: [.access (readRegAt .ID)] := by decide

/-- BufferChangesOnlyByHostWrites: a host write that changes a byte. -/
theorem witness_BufferChangesOnlyByHostWrites :
    ∃ s t : State, (∀ cut rest, s.inbox ≠ .reset cut :: rest) ∧ step s = .next t ∧ t.byteAt 0 ≠ s.byteAt 0 := by
  obtain ⟨t, h, _, _, hb⟩ := step_writeBuf ((withBytes [5] 0 0).setInbox [.access (writeBuf 0 0 7)]) 0 0 7 [] (by decide)
    (by decide) (by decide) (by decide) rfl
  refine ⟨_, t, ?_, h, ?_⟩
  · intro cut rest e; cases e
  · rw [hb 0]; decide

/-- The transaction of a CMD write. -/
def commandTransaction (w : Word) : Transaction := ⟨true, 0x8, 2, w⟩

/-- ResultsChangeOnlyByTheirCommands: a command that changes RESULT. -/
theorem witness_ResultsChangeOnlyByTheirCommands :
    ∃ s t : State, (∀ cut rest, s.inbox ≠ .reset cut :: rest) ∧ step s = .next t ∧ t.result ≠ s.result :=
  ⟨presenting (commandTransaction 0x4), _, fun _ _ e => (by cases e),
    step_command (s := presenting (commandTransaction 0x4)) (w := 0x4) (rest := []) rfl, by decide⟩

/-- ResultsChangeOnlyByTheirCommands: commands that change ACC, PHDR0 and V_STATUS. -/
theorem witness_ResultsChange_clauses :
    (next? (step { State.reset with acc := 5, inbox := [.access (issue .clr)] })).map (fun t => t.acc) = some 0 ∧
      (next? (step { State.reset with phSrc := 5, inbox := [.access (issue .phb)] })).map (fun t => t.phdr0) = some 5 ∧
      (next? (step { withBytes [] 0 0 with inbox := [.access (issue .val)] })).map (fun t => t.verdict) =
        some (.parseFail .shortFrame) := by decide

/-- ErrorBitsAreStickyAndPrecise: each bit set and each bit cleared. -/
theorem witness_ErrorBits :
    (next? (step (presenting (writeReg .CMD 0x8)))).map (fun t => (t.errCmd, t.errRange)) = some (true, false) ∧
      (next? (step { withBytes [] 2000 73 with inbox := [.access (issue .val)] })).map
        (fun t => (t.errCmd, t.errRange)) = some (false, true) ∧
      (next? (step { State.reset with errCmd := true, errRange := true, inbox := [.access (writeReg .STATUS 3)] })).map
        (fun t => (t.errCmd, t.errRange)) = some (false, false) := by decide

/-- StepKeepsTheInvariant: a state that meets the invariant, and its step. -/
theorem witness_StepKeepsTheInvariant : framed.Inv ∧ ∃ t, step framed = .next t :=
  ⟨⟨by decide, by decide, by decide, ⟨rfl, rfl, rfl, rfl⟩, .inl ⟨rfl, rfl, rfl⟩⟩, _, rfl⟩

end Sys2Proof.Tests
end

section
/-! SUPPORT. What a command does to each register group and what a step does to the state, said once, for the statements of
10_state.md. -/

namespace Sys2Proof.Machine

/-! ## What a command does (10_state.md R45) -/

/-- ADD in range streams its range (40_checksum_engine.md R106). -/
theorem effect_add_of_inRange {s : State} (hr : s.InRange) : effect .add s = s.feedBytes s.operandBytes :=
  if_pos ((rangeOk_iff s).2 hr)

/-- VAL in range validates its frame (42_validator.md R140). -/
theorem effect_val_of_inRange {s : State} (hr : s.InRange) : effect .val s = s.validate s.operandBytes :=
  if_pos ((rangeOk_iff s).2 hr)

/-- An ADD or a VAL out of range raises CmdError(RANGE) and does nothing else (60_exceptions.md R177). -/
theorem effect_of_not_inRange {i : Instr} {s : State} (hi : i = .add ∨ i = .val) (hr : ¬ s.InRange) :
    effect i s = s.raise .range := by
  rcases hi with rfl | rfl <;> exact if_neg (mt (rangeOk_iff s).1 hr)

/-- Everything a well-formed command can be: an update of ACC and PHASE, FIN's, PHB's, VAL's, or a range error. -/
theorem effect_cases {i : Instr} (s : State) (hw : WellFormed i) :
    ((i = .add → s.InRange) ∧ i ≠ .val ∧ ∃ a p, effect i s = s.setStream a p) ∨
    (i = .fin ∧ effect i s = s.setResult (finish s.acc)) ∨
    (i = .phb ∧ effect i s = s.setPhdr s.phSrc s.phDst (phdr2Of s.phLen)) ∨
    (i = .val ∧ s.InRange ∧ effect i s = s.validate s.operandBytes) ∨
    ((i = .add ∨ i = .val) ∧ ¬ s.InRange ∧ effect i s = s.raise .range) := by
  cases i with
  | nop => exact .inl ⟨nofun, nofun, s.acc, s.phase, rfl⟩
  | clr => exact .inl ⟨nofun, nofun, 0, false, rfl⟩
  | fin => exact .inr (.inl ⟨rfl, rfl⟩)
  | phb => exact .inr (.inr (.inl ⟨rfl, rfl⟩))
  | pha => exact .inl ⟨nofun, nofun, s.feedBytes_eq_setStream _⟩
  | feed n =>
    have hn : feedCountLegal n := of_decide_eq_true hw
    have he : effect (.feed n) s = s.feedBytes (feedOperand n.toNat s.data) := if_pos hn
    exact .inl ⟨nofun, nofun, he ▸ s.feedBytes_eq_setStream _⟩
  | add =>
    by_cases hr : s.InRange
    · exact .inl ⟨fun _ => hr, nofun, effect_add_of_inRange hr ▸ s.feedBytes_eq_setStream _⟩
    · exact .inr (.inr (.inr (.inr ⟨.inl rfl, hr, effect_of_not_inRange (.inl rfl) hr⟩)))
  | val =>
    by_cases hr : s.InRange
    · exact .inr (.inr (.inr (.inl ⟨rfl, hr, effect_val_of_inRange hr⟩)))
    · exact .inr (.inr (.inr (.inr ⟨.inr rfl, hr, effect_of_not_inRange (.inr rfl) hr⟩)))

/-- NOP, FIN and PHB leave ACC and PHASE. -/
theorem effect_stream_unchanged {i : Instr} (s : State) (hi : i = .nop ∨ i = .fin ∨ i = .phb) :
    (effect i s).acc = s.acc ∧ (effect i s).phase = s.phase := by
  rcases hi with rfl | rfl | rfl <;> exact ⟨rfl, rfl⟩

section
variable {i : Instr} (s : State) (hw : WellFormed i)
include hw

/-- Only FIN and VAL write RESULT. -/
theorem effect_result_unchanged (hi : ¬ (i = .fin ∨ i = .val)) : (effect i s).result = s.result := by
  rcases effect_cases s hw with ⟨-, -, a, p, he⟩ | ⟨rfl, -⟩ | ⟨-, he⟩ | ⟨rfl, -⟩ | ⟨-, -, he⟩
  · rw [he]; rfl
  · simp at hi
  · rw [he]; rfl
  · simp at hi
  · rw [he]; rfl

/-- Only PHB and VAL write PHDR0 to PHDR2. -/
theorem effect_phdr_unchanged (hi : ¬ (i = .phb ∨ i = .val)) :
    (effect i s).phdr0 = s.phdr0 ∧ (effect i s).phdr1 = s.phdr1 ∧ (effect i s).phdr2 = s.phdr2 := by
  rcases effect_cases s hw with ⟨-, -, a, p, he⟩ | ⟨-, he⟩ | ⟨rfl, -⟩ | ⟨rfl, -⟩ | ⟨-, -, he⟩
  · rw [he]; exact ⟨rfl, rfl, rfl⟩
  · rw [he]; exact ⟨rfl, rfl, rfl⟩
  · simp at hi
  · simp at hi
  · rw [he]; exact ⟨rfl, rfl, rfl⟩

/-- Only VAL writes the V_ registers. -/
theorem effect_verdict_unchanged (hi : i ≠ .val) :
    (effect i s).verdict = s.verdict ∧ (effect i s).vIhl = s.vIhl ∧ (effect i s).vTotlen = s.vTotlen ∧
      (effect i s).vEmb = s.vEmb ∧ (effect i s).vCmp = s.vCmp := by
  rcases effect_cases s hw with ⟨-, -, a, p, he⟩ | ⟨-, he⟩ | ⟨-, he⟩ | ⟨rfl, -⟩ | ⟨-, -, he⟩
  · rw [he]; exact ⟨rfl, rfl, rfl, rfl, rfl⟩
  · rw [he]; exact ⟨rfl, rfl, rfl, rfl, rfl⟩
  · rw [he]; exact ⟨rfl, rfl, rfl, rfl, rfl⟩
  · exact absurd rfl hi
  · rw [he]; exact ⟨rfl, rfl, rfl, rfl, rfl⟩

/-- No command that a word encodes raises CmdError(CMD) (60_exceptions.md R176). -/
theorem effect_errCmd : (effect i s).errCmd = s.errCmd := by
  rcases effect_cases s hw with ⟨-, -, a, p, he⟩ | ⟨-, he⟩ | ⟨-, he⟩ | ⟨-, -, he⟩ | ⟨-, -, he⟩ <;> simp [he]

/-- ADD and VAL out of range, and nothing else, raise CmdError(RANGE) (60_exceptions.md R177). -/
theorem effect_errRange :
    (effect i s).errRange = (s.errRange || (decide (i = .add ∨ i = .val) && decide (¬ s.InRange))) := by
  rcases effect_cases s hw with ⟨ha, hv, a, p, he⟩ | ⟨rfl, he⟩ | ⟨rfl, he⟩ | ⟨rfl, hr, he⟩ | ⟨hi, hr, he⟩
  · rw [he]
    by_cases hi : i = .add
    · simp [hi, ha hi]
    · simp [hi, hv]
  · simp [he]
  · simp [he]
  · simp [he, hr]
  · simp [he, hi, hr]

end

/-- A comparison of checksums is no parse failure (42_validator.md R151). -/
theorem compareVerdict_ne_parseFail (c e : Half) (r : ParseReason) : compareVerdict c e ≠ .parseFail r := by
  unfold compareVerdict
  split <;> exact nofun

/-- Only a parse failure leaves PARSE_FAIL, and it writes the V_ registers alone (42_validator.md R150). -/
theorem State.validate_of_parseFail {s : State} {f : List Byte} {r : ParseReason}
    (h : (s.validate f).verdict = .parseFail r) : s.validate f = s.parseFail r := by
  unfold State.validate at h ⊢
  split
  case h_1 r' hc =>
    rw [hc] at h
    cases h
    rfl
  case h_2 hc =>
    rw [hc] at h
    exact absurd h (by rw [State.validateFrame_eq]; exact compareVerdict_ne_parseFail _ _ r)

/-- A VAL that ends in PARSE_FAIL wrote the V_ registers alone, or was out of range. -/
theorem effect_val_of_parseFail {s : State} {r : ParseReason} (h : (effect .val s).verdict = .parseFail r) :
    effect .val s = s.parseFail r ∨ effect .val s = s.raise .range := by
  by_cases hr : s.InRange
  · rw [effect_val_of_inRange hr] at h ⊢
    exact .inl (State.validate_of_parseFail h)
  · exact .inr (effect_of_not_inRange (.inr rfl) hr)

/-- Settles O31: the command's own cases say which register group it writes. -/
theorem commandsWriteOnlyTheirState : Obligations.CommandsWriteOnlyTheirState := by
  intro i s t hw ht
  obtain rfl := (exec_next_iff s i t).1 ht
  refine ⟨effect_stream_unchanged s, ?_, fun hf hv => effect_result_unchanged s hw (not_or.2 ⟨hf, hv⟩),
    fun hb hv => effect_phdr_unchanged s hw (not_or.2 ⟨hb, hv⟩), effect_verdict_unchanged s hw, ?_, ?_,
    State.byteAt_congr (effect_buf s i) (effect_epoch s i), effect_bufBytes s i, effect_epoch s i, effect_inbox s i,
    effect_outbox s i, effect_of_not_inRange⟩
  · rintro rfl
    exact ⟨rfl, rfl⟩
  · rintro rfl ⟨r, hr⟩
    rcases effect_val_of_parseFail hr with he | he <;> rw [he] <;> exact ⟨rfl, rfl, rfl, rfl, rfl, rfl⟩
  · simp

/-! ## What a command reads (10_state.md R49) -/

/-- The state with other STATUS error bits and another V_STATUS. -/
def State.withStatus (s : State) (c r : Bool) (v : Verdict) : State := { s with errCmd := c, errRange := r, verdict := v }

theorem State.feedBytes_withStatus (s : State) (c r : Bool) (v : Verdict) (bs : List Byte) :
    (s.withStatus c r v).feedBytes bs = (s.feedBytes bs).withStatus c r v := by
  rw [State.feedBytes_eq, State.feedBytes_eq]; rfl

/-- VAL past its range check reads neither the error bits nor V_STATUS. -/
theorem State.validate_withStatus (s : State) (c r : Bool) (v : Verdict) (f : List Byte) :
    (s.withStatus c r v).validate f = (s.validate f).withStatus c r (s.validate f).verdict := by
  unfold State.validate
  cases parseCheck f with
  | some reason => rfl
  | none =>
    simp only [State.validateFrame_eq, State.feedBytes_eq]
    rfl

/-- A VAL in range reads neither the error bits nor V_STATUS. -/
theorem effect_val_withStatus {s : State} (c r : Bool) (v : Verdict) (hr : s.InRange) :
    effect .val (s.withStatus c r v) = (effect .val s).withStatus c r (effect .val s).verdict := by
  rw [effect_val_of_inRange hr, effect_val_of_inRange (s := s.withStatus c r v) hr]
  exact s.validate_withStatus c r v s.operandBytes

/-- No command reads the error bits or V_STATUS. -/
theorem effect_withStatus (i : Instr) (s : State) (c r : Bool) (v : Verdict) :
    ∃ c' r' v', effect i (s.withStatus c r v) = (effect i s).withStatus c' r' v' := by
  cases i with
  | nop => exact ⟨c, r, v, rfl⟩
  | clr => exact ⟨c, r, v, rfl⟩
  | fin => exact ⟨c, r, v, rfl⟩
  | phb => exact ⟨c, r, v, rfl⟩
  | pha => exact ⟨c, r, v, s.feedBytes_withStatus c r v s.phBytes⟩
  | add =>
    by_cases hr : s.InRange
    · rw [effect_add_of_inRange hr, effect_add_of_inRange (s := s.withStatus c r v) hr]
      exact ⟨c, r, v, s.feedBytes_withStatus c r v s.operandBytes⟩
    · rw [effect_of_not_inRange (.inl rfl) hr]
      exact ⟨c, true, v, effect_of_not_inRange (.inl rfl) hr⟩
  | feed n =>
    by_cases hn : feedCountLegal n
    · have h1 : effect (.feed n) s = s.feedBytes (feedOperand n.toNat s.data) := if_pos hn
      exact ⟨c, r, v, (if_pos hn).trans (h1 ▸ s.feedBytes_withStatus c r v _)⟩
    · have h1 : effect (.feed n) s = s.raise .cmd := if_neg hn
      exact ⟨true, r, v, (if_neg hn).trans (h1 ▸ rfl)⟩
  | val =>
    by_cases hr : s.InRange
    · exact ⟨c, r, _, effect_val_withStatus c r v hr⟩
    · rw [effect_of_not_inRange (.inr rfl) hr]
      exact ⟨c, true, v, effect_of_not_inRange (.inr rfl) hr⟩

/-- Settles O33: changing the error bits and V_STATUS commutes with every command. -/
theorem commandsDoNotReadStatus : Obligations.CommandsDoNotReadStatus := by
  intro i s c r v
  refine ⟨_, _, exec_eq_effect s i, exec_eq_effect (s.withStatus c r v) i, ?_, ?_⟩
  · obtain ⟨c', r', v', he⟩ := effect_withStatus i s c r v
    rw [he]; rfl
  · rintro rfl hr
    rw [effect_val_withStatus c r v hr]; rfl

end Sys2Proof.Machine
end

section
/-! SUPPORT. What a step does to the block's own registers and BUF, and the statements about the whole machine. -/

namespace Sys2Proof.Machine

/-! ## What a command word does (30_encoding.md R81) -/

/-- A command word is a well-formed command's, or one that raises CmdError(CMD). -/
theorem commandEffect_cases (w : Word) (s : State) :
    (∃ i, WellFormed i ∧ encode i = w ∧ ¬ IllegalCommand w ∧ commandEffect w s = effect i s) ∨
    (IllegalCommand w ∧ commandEffect w s = s.raise .cmd) := by
  unfold commandEffect
  cases hd : decode w with
  | ok i =>
    obtain ⟨hw, he, hl⟩ := decode_ok_spec w i hd
    exact .inl ⟨i, hw, he, hl, rfl⟩
  | error e => exact .inr ⟨decode_error_spec w e hd, rfl⟩

theorem commandEffect_of_decode {w : Word} {i : Instr} (s : State) (hd : decode w = .ok i) :
    commandEffect w s = effect i s := by
  unfold commandEffect; rw [hd]

@[simp] theorem commandEffect_bufBytes (w : Word) (s : State) : (commandEffect w s).bufBytes = s.bufBytes := by
  unfold commandEffect; split <;> simp

@[simp] theorem commandEffect_buf (w : Word) (s : State) : (commandEffect w s).buf = s.buf := by
  unfold commandEffect; split <;> simp

@[simp] theorem commandEffect_epoch (w : Word) (s : State) : (commandEffect w s).epoch = s.epoch := by
  unfold commandEffect; split <;> simp

/-- ADD's and VAL's words. -/
theorem encode_add_or_val_iff {i : Instr} (hw : WellFormed i) :
    (encode i = 0x002 ∨ encode i = 0x007) ↔ (i = .add ∨ i = .val) := by
  cases i
  case feed n => revert n; decide
  all_goals decide

/-- The words of the commands that write ACC and PHASE. -/
theorem encode_mem_streamWords {i : Instr} (hw : WellFormed i) (hi : ¬ (i = .nop ∨ i = .fin ∨ i = .phb)) :
    encode i ∈ ([0x001, 0x002, 0x103, 0x203, 0x303, 0x403, 0x006, 0x007] : List Word) := by
  cases i
  case feed n => revert n; decide
  case nop | fin | phb => simp at hi
  all_goals decide

/-- A word sets ERR_CMD exactly when it is illegal (60_exceptions.md R176). -/
theorem commandEffect_errCmd (w : Word) (s : State) :
    (commandEffect w s).errCmd = (s.errCmd || decide (IllegalCommand w)) := by
  rcases commandEffect_cases w s with ⟨i, hw, -, hl, hc⟩ | ⟨hl, hc⟩
  · rw [hc, effect_errCmd s hw, decide_eq_false hl, Bool.or_false]
  · rw [hc, decide_eq_true hl, Bool.or_true]; rfl

/-- A word sets ERR_RANGE exactly when it is ADD's or VAL's and the range leaves the buffer (60_exceptions.md R177). -/
theorem commandEffect_errRange (w : Word) (s : State) :
    (commandEffect w s).errRange =
      (s.errRange || (decide (w = 0x002 ∨ w = 0x007) && decide (¬ s.InRange))) := by
  rcases commandEffect_cases w s with ⟨i, hw, rfl, -, hc⟩ | ⟨hl, hc⟩
  · rw [hc, effect_errRange s hw, decide_eq_decide.2 (encode_add_or_val_iff hw)]
  · have hne : ¬ (w = 0x002 ∨ w = 0x007) := by
      rintro (rfl | rfl) <;> exact absurd hl (by decide)
    rw [hc, decide_eq_false hne]; simp

section
variable (w : Word) (s : State)

/-- The words that can change ACC or PHASE (10_state.md R31, R36). -/
theorem commandEffect_stream_changes (h : (commandEffect w s).acc ≠ s.acc ∨ (commandEffect w s).phase ≠ s.phase) :
    w ∈ ([0x001, 0x002, 0x103, 0x203, 0x303, 0x403, 0x006, 0x007] : List Word) := by
  rcases commandEffect_cases w s with ⟨i, hw, rfl, -, hc⟩ | ⟨-, hc⟩
  · refine encode_mem_streamWords hw fun hi => ?_
    obtain ⟨ha, hp⟩ := effect_stream_unchanged s hi
    simp [hc, ha, hp] at h
  · simp [hc] at h

/-- The words that can change RESULT (R32). -/
theorem commandEffect_result_changes (h : (commandEffect w s).result ≠ s.result) :
    w ∈ ([0x004, 0x007] : List Word) := by
  rcases commandEffect_cases w s with ⟨i, hw, rfl, -, hc⟩ | ⟨-, hc⟩
  · have hi : i = .fin ∨ i = .val := by
      by_contra hi
      exact h (hc ▸ effect_result_unchanged s hw hi)
    rcases hi with rfl | rfl <;> decide
  · simp [hc] at h

/-- The words that can change PHDR0 to PHDR2 (R37 to R39). -/
theorem commandEffect_phdr_changes (h : (commandEffect w s).phdr0 ≠ s.phdr0 ∨ (commandEffect w s).phdr1 ≠ s.phdr1 ∨
    (commandEffect w s).phdr2 ≠ s.phdr2) : w ∈ ([0x005, 0x007] : List Word) := by
  rcases commandEffect_cases w s with ⟨i, hw, rfl, -, hc⟩ | ⟨-, hc⟩
  · have hi : i = .phb ∨ i = .val := by
      by_contra hi
      obtain ⟨h0, h1, h2⟩ := effect_phdr_unchanged s hw hi
      simp [hc, h0, h1, h2] at h
    rcases hi with rfl | rfl <;> decide
  · simp [hc] at h

/-- VAL's word alone can change a V_ register (R40). -/
theorem commandEffect_verdict_changes (h : (commandEffect w s).verdict ≠ s.verdict ∨ (commandEffect w s).vIhl ≠ s.vIhl ∨
    (commandEffect w s).vTotlen ≠ s.vTotlen ∨ (commandEffect w s).vEmb ≠ s.vEmb ∨ (commandEffect w s).vCmp ≠ s.vCmp) :
    w ∈ ([0x007] : List Word) := by
  rcases commandEffect_cases w s with ⟨i, hw, rfl, -, hc⟩ | ⟨-, hc⟩
  · have hi : i = .val := by
      by_contra hi
      obtain ⟨h0, h1, h2, h3, h4⟩ := effect_verdict_unchanged s hw hi
      simp [hc, h0, h1, h2, h3, h4] at h
    subst hi; decide
  · simp [hc] at h

end

/-- Settles O5: a CMD write is routed to `runCommand`, and the placed word decodes to its command. -/
theorem stepRunsTheDecodedCommand : Obligations.StepRunsTheDecodedCommand := by
  have runs : ∀ (s : State) (w : Word) (i : Instr) (rest : List PortEvent), s.inbox = commandWrite w :: rest →
      decode w = .ok i → step s = answer (.okay 0) (exec i (s.setInbox rest)) := by
    intro s w i rest hi hd
    rw [step_command hi, commandEffect_of_decode _ hd, exec_eq_effect]; rfl
  refine ⟨runs, fun s i t hw ht => ?_⟩
  have hword : tableWord 32 (encode i).toNat = encode i := by
    unfold tableWord
    rw [Nat.mod_eq_of_lt (encode i).isLt, BitVec.ofNat_toNat, BitVec.setWidth_eq]
  have hin : (s.withFetchWord 32 (encode i).toNat).inbox = commandWrite (encode i) :: s.inbox := by
    unfold State.withFetchWord; rw [hword]; rfl
  rw [runs _ _ i _ hin (decode_encode i hw), show (s.withFetchWord 32 (encode i).toNat).setInbox s.inbox = s from rfl, ht]
  rfl

/-! ## STATUS writes (10_state.md R27) -/

theorem statusBit0_eq (v : Word) : v.getLsbD 0 = decide (v.toNat % 2 = 1) := by
  rw [← BitVec.testBit_toNat, Nat.testBit_zero]

theorem statusBit1_eq (v : Word) : v.getLsbD 1 = decide (v.toNat / 2 % 2 = 1) := by
  rw [← BitVec.testBit_toNat, Nat.testBit_eq_decide_div_mod_eq, pow_one]

/-- Settles O37: the write-one-to-clear on the bits of the data as numbers. -/
theorem statusWriteClearsOnOne : Obligations.StatusWriteClearsOnOne := by
  intro s rest v hi
  have h0 : (!v.getLsbD 0) = decide (v.toNat % 2 = 0) := by
    rw [statusBit0_eq, ← decide_not, decide_eq_decide]; omega
  have h1 : (!v.getLsbD 1) = decide (v.toNat / 2 % 2 = 0) := by
    rw [statusBit1_eq, ← decide_not, decide_eq_decide]; omega
  rw [step_writeRegister 0x0C .STATUS (.clearStatus v) (by omega) (by omega) rfl rfl hi, ← h0, ← h1]
  rfl

/-! ## Reset (10_state.md R47) -/

/-- Settles O45: a reset empties the list of written bytes and counts one reset more. -/
theorem resetRedrawsTheBuffer : Obligations.ResetRedrawsTheBuffer := by
  intro s cut rest hi
  refine ⟨_, step_reset hi, Nat.succ_ne_self _, fun a => rfl, fun a bytes c hc => ?_⟩
  rw [State.byteAt_memWrite, dif_neg (by omega)]
  rfl

/-! ## What a step does -/

/-- What a step does to the block's registers and BUF: one case for each kind of event that writes any. The port's two lists
and the response's data are left open where nothing else is written. -/
inductive StepEffect (s : State) : State → Prop where
  /-- idle, a bus error or a read -/
  | quiet (evs : List PortEvent) (rs : List Response) : StepEffect s { s with inbox := evs, outbox := rs }
  /-- a reset (70_reset_and_hazards.md R190) -/
  | reset (cut : Option Transaction) (rest : List PortEvent) :
      s.inbox = .reset cut :: rest → StepEffect s (s.setInbox rest).afterReset
  /-- a CMD write (10_state.md R26) -/
  | command (w : Word) (rest : List PortEvent) :
      s.inbox = commandWrite w :: rest → StepEffect s ((commandEffect w (s.setInbox rest)).respond (.okay 0))
  /-- a STATUS write (R27) -/
  | clearStatus (v : Word) (rest : List PortEvent) :
      s.inbox = .access ⟨true, 0x0C, 2, v⟩ :: rest → StepEffect s (((s.setInbox rest).clearErrors v).respond (.okay 0))
  /-- a write of an operand register (R23) -/
  | operand (r : OperandReg) (v : Word) (rest : List PortEvent) :
      StepEffect s (((s.setInbox rest).writeOperand r v).respond (.okay 0))
  /-- a buffer write (20_memory.md R66) -/
  | bufferWrite (x : Transaction) (n : Nat) (rest : List PortEvent) :
      s.inbox = .access x :: rest → x.write = true → sizeBytes x.size = some n → 0x10000 ≤ x.off.toNat →
        StepEffect s (((s.setInbox rest).memWrite (x.off.toNat - 0x10000) (laneBytes n x.wdata)).respond (.okay 0))

/-- Every step is one of the cases of `StepEffect`. -/
theorem stepEffect_of_step {s t : State} (h : step s = .next t) : StepEffect s t := by
  rcases step_cases h with ⟨-, rfl⟩ | ⟨cut, rest, hi, rfl⟩ | ⟨x, rest, f, -, -, rfl⟩ | ⟨x, rest, a, hi, hr, rfl⟩
  · exact .quiet t.inbox t.outbox
  · exact .reset cut rest hi
  · exact .quiet rest _
  · rcases route_ok_cases hr with ⟨r, rfl, -⟩ | ⟨w, rfl, rfl⟩ | ⟨v, rfl, rfl⟩ | ⟨r, v, rfl, -⟩ | ⟨n, rfl, -⟩ |
      ⟨n, rfl, hwr, hn, ho, -, -⟩
    · exact .quiet rest _
    · exact .command w rest hi
    · exact .clearStatus v rest hi
    · exact .operand r v rest
    · exact .quiet rest _
    · exact .bufferWrite x n rest hi hwr hn ho

/-- Settles O47: of the cases of a step, a buffer write alone changes BUF, in the bytes it carries. -/
theorem bufferChangesOnlyByHostWrites : Obligations.BufferChangesOnlyByHostWrites := by
  intro s t a hnr h hne
  cases stepEffect_of_step h with
  | quiet evs rs => exact absurd rfl hne
  | reset cut rest hi => exact absurd hi (hnr cut rest)
  | command w rest hi => exact absurd (State.byteAt_congr (by simp) (by simp) a) hne
  | clearStatus v rest hi => exact absurd rfl hne
  | operand r v rest => exact absurd (State.byteAt_congr (by simp) (by simp) a) hne
  | bufferWrite x n rest hi hwr hn ho =>
    have hcov : x.off.toNat - 0x10000 ≤ a ∧ a - (x.off.toNat - 0x10000) < (laneBytes n x.wdata).length := by
      by_contra hout
      exact hne ((State.byteAt_memWrite _ _ _ _).trans (dif_neg hout))
    have hsize : n = 2 ^ x.size.toNat := by
      rw [sizeBytes_eq] at hn
      split at hn
      · cases hn
      · exact (Option.some.inj hn).symm
    simp only [laneBytes, List.length_map, List.length_range] at hcov
    exact ⟨x, rest, hi, hwr, ho, hcov.1, by omega⟩

/-- The result registers (10_state.md R31, R32, R36 to R44) and BUF_BYTES are the same in two states. -/
structure SameResults (s t : State) : Prop where
  acc : t.acc = s.acc
  phase : t.phase = s.phase
  result : t.result = s.result
  phdr0 : t.phdr0 = s.phdr0
  phdr1 : t.phdr1 = s.phdr1
  phdr2 : t.phdr2 = s.phdr2
  verdict : t.verdict = s.verdict
  vIhl : t.vIhl = s.vIhl
  vTotlen : t.vTotlen = s.vTotlen
  vEmb : t.vEmb = s.vEmb
  vCmp : t.vCmp = s.vCmp
  bufBytes : t.bufBytes = s.bufBytes

/-- A step is a reset, a CMD write, or keeps the result registers. -/
theorem step_results {s t : State} (h : step s = .next t) :
    (∃ cut rest, s.inbox = .reset cut :: rest) ∨
    (∃ w rest, s.inbox = commandWrite w :: rest ∧ t = (commandEffect w (s.setInbox rest)).respond (.okay 0)) ∨
    SameResults s t := by
  cases stepEffect_of_step h with
  | reset cut rest hi => exact .inl ⟨cut, rest, hi⟩
  | command w rest hi => exact .inr (.inl ⟨w, rest, hi, rfl⟩)
  | quiet evs rs => exact .inr (.inr (by constructor <;> rfl))
  | clearStatus v rest hi => exact .inr (.inr (by constructor <;> rfl))
  | operand r v rest => exact .inr (.inr (by constructor <;> simp))
  | bufferWrite x n rest => exact .inr (.inr (by constructor <;> rfl))

/-- Settles O48: only a CMD write reaches the result registers, and its word says which. -/
theorem resultsChangeOnlyByTheirCommands : Obligations.ResultsChangeOnlyByTheirCommands := by
  intro s t hnr h byWord
  rcases step_results h with ⟨cut, rest, hi⟩ | ⟨w, rest, hi, rfl⟩ | hs
  · exact absurd hi (hnr cut rest)
  · exact ⟨fun hc => ⟨w, commandEffect_stream_changes w _ hc, rest, hi⟩,
      fun hc => ⟨w, commandEffect_result_changes w _ hc, rest, hi⟩,
      fun hc => ⟨w, commandEffect_phdr_changes w _ hc, rest, hi⟩,
      fun hc => ⟨w, commandEffect_verdict_changes w _ hc, rest, hi⟩, commandEffect_bufBytes w _⟩
  · obtain ⟨ha, hp, hr, h0, h1, h2, hv, hh, hl, he, hc, hb⟩ := hs
    simp [ha, hp, hr, h0, h1, h2, hv, hh, hl, he, hc, hb]

/-- A step is a reset, a CMD write, a STATUS write, or keeps the error bits. -/
theorem step_errorBits {s t : State} (h : step s = .next t) :
    (∃ cut rest, s.inbox = .reset cut :: rest ∧ t = (s.setInbox rest).afterReset) ∨
    (∃ w rest, s.inbox = commandWrite w :: rest ∧ t = (commandEffect w (s.setInbox rest)).respond (.okay 0)) ∨
    (∃ v rest, s.inbox = .access ⟨true, 0x0C, 2, v⟩ :: rest ∧ t = ((s.setInbox rest).clearErrors v).respond (.okay 0)) ∨
    (t.errCmd = s.errCmd ∧ t.errRange = s.errRange) := by
  cases stepEffect_of_step h with
  | reset cut rest hi => exact .inl ⟨cut, rest, hi, rfl⟩
  | command w rest hi => exact .inr (.inl ⟨w, rest, hi, rfl⟩)
  | clearStatus v rest hi => exact .inr (.inr (.inl ⟨v, rest, hi, rfl⟩))
  | quiet evs rs => exact .inr (.inr (.inr ⟨rfl, rfl⟩))
  | operand r v rest => exact .inr (.inr (.inr (by simp)))
  | bufferWrite x n rest => exact .inr (.inr (.inr ⟨rfl, rfl⟩))

/-- Settles O49: a CMD write can only set the bits, a STATUS write and a reset can only clear them. -/
theorem errorBitsAreStickyAndPrecise : Obligations.ErrorBitsAreStickyAndPrecise := by
  intro s t h
  rcases step_errorBits h with ⟨cut, rest, hi, rfl⟩ | ⟨w, rest, hi, rfl⟩ | ⟨v, rest, hi, rfl⟩ | ⟨hc, hr⟩
  · exact ⟨fun _ => nofun, fun _ => nofun, fun _ _ => .inl ⟨cut, rest, hi⟩, fun _ _ => .inl ⟨cut, rest, hi⟩⟩
  · have hc : ((commandEffect w (s.setInbox rest)).respond (.okay 0)).errCmd =
        (s.errCmd || decide (IllegalCommand w)) := commandEffect_errCmd w _
    have hr : ((commandEffect w (s.setInbox rest)).respond (.okay 0)).errRange =
        (s.errRange || (decide (w = 0x002 ∨ w = 0x007) && decide (¬ s.InRange))) := commandEffect_errRange w _
    refine ⟨fun h0 h1 => ⟨w, rest, hi, ?_⟩, fun h0 h1 => ⟨w, rest, hi, ?_⟩, fun h1 h0 => ?_, fun h1 h0 => ?_⟩
    · simpa only [h0, Bool.false_or, decide_eq_true_eq] using hc.symm.trans h1
    · simpa only [h0, Bool.false_or, Bool.and_eq_true, decide_eq_true_eq] using hr.symm.trans h1
    · rw [hc, h1] at h0; cases h0
    · rw [hr, h1] at h0; cases h0
  · refine ⟨fun h0 h1 => ?_, fun h0 h1 => ?_, fun h1 h0 => .inr ⟨v, rest, hi, ?_⟩, fun h1 h0 => .inr ⟨v, rest, hi, ?_⟩⟩
    · simp [h0] at h1
    · simp [h0] at h1
    · simpa only [State.respond_errCmd, State.clearErrors_errCmd, State.setInbox_errCmd, h1, Bool.true_and,
        Bool.not_eq_false', statusBit0_eq, decide_eq_true_eq] using h0
    · simpa only [State.respond_errRange, State.clearErrors_errRange, State.setInbox_errRange, h1, Bool.true_and,
        Bool.not_eq_false', statusBit1_eq, decide_eq_true_eq] using h0
  · exact ⟨fun h0 h1 => absurd (h0.symm.trans (hc.symm.trans h1)) nofun,
      fun h0 h1 => absurd (h0.symm.trans (hr.symm.trans h1)) nofun,
      fun h1 h0 => absurd (h1.symm.trans (hc.symm.trans h0)) nofun,
      fun h1 h0 => absurd (h1.symm.trans (hr.symm.trans h0)) nofun⟩

end Sys2Proof.Machine
end

section
/-! SUPPORT. The port and the two windows of the aperture: what a step takes and answers, what a read returns, which bytes a
buffer access moves, and where the buffer ends, for the statements of 20_memory.md. -/

namespace Sys2Proof.Machine

/-! ## The aperture (20_memory.md R60) -/

theorem apertureOffset_blockBase_add {k : Nat} (hk : k < 0x20000) :
    apertureOffset (Config.blockBase + k) = some (BitVec.ofNat 17 k) := by
  unfold apertureOffset
  rw [if_pos ⟨Nat.le_add_right _ _, Nat.add_lt_add_left hk _⟩, Nat.add_sub_cancel_left]

theorem apertureOffset_eq_none {h : Nat} (hh : ¬ (Config.blockBase ≤ h ∧ h < Config.blockBase + 0x20000)) :
    apertureOffset h = none :=
  if_neg hh

/-- Settles O41: an address is in the aperture exactly when it is BLOCK_BASE plus an offset below 0x20000. -/
theorem apertureHoldsTheOffsets : Obligations.ApertureHoldsTheOffsets := by
  refine fun h => ⟨?_, fun hout => apertureOffset_eq_none ?_⟩
  · rintro k hk rfl
    exact apertureOffset_blockBase_add hk
  · rintro ⟨hlo, hhi⟩
    exact hout (h - Config.blockBase) (by omega) (by omega)

/-! ## Taking events (20_memory.md R62, R70, 70_reset_and_hazards.md R191, R201) -/

/-- A step takes the first event alone, and appends one response for a transaction and none for a reset. -/
theorem step_takes_head {s : State} {ev : PortEvent} {rest : List PortEvent} (hi : s.inbox = ev :: rest) :
    ∃ t rs, step s = .next t ∧ t.inbox = rest ∧ t.outbox = s.outbox ++ rs ∧
      rs.length = if ev.isAccess then 1 else 0 := by
  cases ev with
  | access x =>
    cases hr : route s.bufBytes x with
    | error f => exact ⟨_, [.err f], step_error hi hr, rfl, rfl, rfl⟩
    | ok a => exact ⟨_, [.okay (accessData (s.setInbox rest) a)], step_ok hi hr, by simp, by simp, rfl⟩
  | reset cut => exact ⟨_, [], step_reset hi, rfl, by simp, rfl⟩

/-- As many steps as events wait take them all. -/
theorem run_drains_inbox {s : State} {evs : List PortEvent} (hi : s.inbox = evs) :
    ∃ t rs, run evs.length s = .next t ∧ t.inbox = [] ∧ t.outbox = s.outbox ++ rs ∧
      rs.length = evs.countP PortEvent.isAccess := by
  induction evs generalizing s with
  | nil => exact ⟨s, [], rfl, hi, by simp, rfl⟩
  | cons ev rest ih =>
    obtain ⟨u, rs, hstep, hin, hout, hlen⟩ := step_takes_head hi
    obtain ⟨t, rs', hrun, hin', hout', hlen'⟩ := ih hin
    refine ⟨t, rs ++ rs', (run_succ _ hstep).trans hrun, hin', ?_, ?_⟩
    · rw [hout', hout, List.append_assoc]
    · rw [List.length_append, hlen, hlen', List.countP_cons, Nat.add_comm]

/-- Settles O7, by induction on the events that wait. -/
theorem portDrainsWithOneResponseEach : Obligations.PortDrainsWithOneResponseEach := by
  refine ⟨fun s ev rest hi => ?_, fun s => ?_⟩
  · obtain ⟨t, rs, hstep, hin, hout, hlen⟩ := step_takes_head hi
    refine ⟨t, hstep, hin, ?_⟩
    cases ev with
    | access x =>
      obtain ⟨r, rfl⟩ := List.length_eq_one_iff.1 hlen
      exact ⟨r, hout⟩
    | reset cut =>
      obtain rfl := List.length_eq_zero_iff.1 hlen
      exact hout.trans (List.append_nil _)
  · obtain ⟨t, rs, hrun, hin, hout, hlen⟩ := run_drains_inbox (s := s) rfl
    exact ⟨t, hrun, hin, rs, hout, hlen⟩

/-! ## Reads (20_memory.md R76) -/

/-- The response a read gets: ERR with its cause, or the data of what it reads. -/
def readResponse (s : State) (x : Transaction) : Response :=
  match route s.bufBytes x with
  | .error f => .err f
  | .ok a => .okay (accessData s a)

/-- The data of an access does not depend on the two ends of the port. -/
theorem accessData_of_port (s : State) (evs : List PortEvent) (rs : List Response) (a : Access) :
    accessData { s with inbox := evs, outbox := rs } a = accessData s a := by
  cases a with
  | readReg r => cases r <;> rfl
  | _ => rfl

/-- ... and so the response of a read does not. -/
theorem readResponse_of_port (s : State) (evs : List PortEvent) (rs : List Response) (x : Transaction) :
    readResponse { s with inbox := evs, outbox := rs } x = readResponse s x := by
  unfold readResponse
  simp only [accessData_of_port]

/-- The access of a read has no effect. -/
theorem accessEffect_of_read {b : Nat} {x : Transaction} {a : Access} (hx : x.write = false) (hr : route b x = .ok a)
    (s : State) : accessEffect s a = s := by
  rcases route_ok_cases hr with ⟨r, rfl, -⟩ | ⟨w, -, rfl⟩ | ⟨w, -, rfl⟩ | ⟨r, v, -, hw⟩ | ⟨n, rfl, -⟩ | ⟨n, -, hw, -⟩
  · rfl
  · cases hx
  · cases hx
  · simp [hx] at hw
  · rfl
  · simp [hx] at hw

/-- A read is taken from the port and answered, and nothing else changes. -/
theorem step_read {s : State} {x : Transaction} {rest : List PortEvent} (hx : x.write = false)
    (hi : s.inbox = .access x :: rest) :
    step s = .next { s with inbox := rest, outbox := s.outbox ++ [readResponse s x] } := by
  cases hr : route s.bufBytes x with
  | error f =>
    rw [step_error hi hr, readResponse, hr]
    rfl
  | ok a =>
    have hdata : accessData (s.setInbox rest) a = accessData s a := accessData_of_port s rest s.outbox a
    rw [step_ok hi hr, accessEffect_of_read hx hr, hdata, readResponse, hr]
    rfl

/-- Settles O40: the second read meets the state the first one met, but for the port. -/
theorem readsAreIdempotent : Obligations.ReadsAreIdempotent := by
  intro s x rest hx hi
  refine ⟨readResponse s x, ?_⟩
  have hsame := readResponse_of_port s (.access x :: rest) (s.outbox ++ [readResponse s x]) x
  rw [run_succ 1 (step_read hx hi), run_succ 0 (step_read hx rfl), hsame, run_zero]
  simp

/-! ## Buffer accesses (20_memory.md R64 to R66) -/

/-- The transfer value of the bytes read, lane by lane (R64, R66). -/
theorem transferValue_memRead (s : State) (a n : Nat) :
    transferValue (s.memRead a n) =
      BitVec.ofNat 32 (∑ i ∈ Finset.range n, (s.byteAt (a + i)).toNat * 2 ^ (8 * i)) :=
  congrArg (BitVec.ofNat 32) (littleEndian_range s.byteAt n a)

/-- Settles O38: the access is taken, and its lanes are the bytes of the transfer value. -/
theorem bufferAccessMovesTheBytes : Obligations.BufferAccessMovesTheBytes := by
  intro s rest code a d hc hal hlt hle n
  have hroute (w : Bool) := route_bufferAccess s.bufBytes w code a d hc hal hlt hle
  refine ⟨fun hi => ?_, fun hi => ?_⟩
  · rw [step_read rfl hi, readResponse, hroute, ← transferValue_memRead]
    rfl
  · obtain ⟨t, ht, -, -, hbytes⟩ := step_writeBuf s code a d rest hc hal hlt hle hi
    have hstep := step_ok hi (hroute true)
    refine ⟨t, ht, ?_, fun c => ?_⟩
    · rw [ht] at hstep
      cases hstep
      rfl
    · rw [hbytes, lane_eq]

/-- An access has 1, 2 or 4 bytes. -/
theorem accessSize_cases : ∀ code : BitVec 2, code ≠ 3 →
    2 ^ code.toNat = 1 ∨ 2 ^ code.toNat = 2 ∨ 2 ^ code.toNat = 4 := by
  decide

section
variable {x : Transaction} (hs : x.size ≠ 3) (ho : 0x10000 ≤ x.off.toNat)
include hs ho

/-- A misaligned access to the buffer window is a bus error (R69). -/
theorem route_buffer_misaligned (b : Nat) (hal : x.off.toNat % 2 ^ x.size.toNat ≠ 0) :
    route b x = .error .misaligned := by
  unfold route
  rw [sizeBytes_eq, if_neg hs]
  simp only
  rw [if_neg (by omega), if_pos hal]

/-- An aligned access to the buffer window is decided by the buffer bound (R65). -/
theorem route_buffer_aligned (b : Nat) (hal : x.off.toNat % 2 ^ x.size.toNat = 0) :
    route b x = routeBuffer b x (2 ^ x.size.toNat) (x.off.toNat - 0x10000) :=
  route_buffer (by rw [sizeBytes_eq, if_neg hs]) ho hal

/-- An aligned access that starts inside a buffer of whole words ends inside it. -/
theorem buffer_aligned_end {b : Nat} (hb : b % 4 = 0) (hal : x.off.toNat % 2 ^ x.size.toNat = 0)
    (hlt : x.off.toNat - 0x10000 < b) : x.off.toNat - 0x10000 + 2 ^ x.size.toNat ≤ b := by
  rcases accessSize_cases x.size hs with hn | hn | hn <;> rw [hn] at hal ⊢ <;> omega

/-- An access that touches a byte at or past the buffer's end is a bus error. -/
theorem route_buffer_past_end {b i : Nat} (hb : b % 4 = 0) (hi : i < 2 ^ x.size.toNat)
    (hpast : b ≤ x.off.toNat - 0x10000 + i) : ∃ f, route b x = .error f := by
  by_cases hal : x.off.toNat % 2 ^ x.size.toNat = 0
  · have hstart : b ≤ x.off.toNat - 0x10000 := by
      by_contra hlt
      have := buffer_aligned_end hs ho hb hal (Nat.lt_of_not_le hlt)
      omega
    exact ⟨.bufRange, (route_buffer_aligned hs ho b hal).trans (if_pos hstart)⟩
  · exact ⟨.misaligned, route_buffer_misaligned hs ho b hal⟩

/-- An aligned access that starts inside the buffer is taken. -/
theorem route_buffer_inside {b : Nat} (hal : x.off.toNat % 2 ^ x.size.toNat = 0) (hlt : x.off.toNat - 0x10000 < b) :
    ∃ a, route b x = .ok a := by
  rw [route_buffer_aligned hs ho b hal]
  unfold routeBuffer
  rw [if_neg (Nat.not_le.2 hlt)]
  cases x.write with
  | true => exact ⟨_, rfl⟩
  | false => exact ⟨_, rfl⟩

end

/-- Settles O39: sizes divide the word, so an aligned access does not cross the end of a buffer of whole words. -/
theorem bufferEdgeIsAnError : Obligations.BufferEdgeIsAnError := by
  rintro s x rest ⟨hb, -, -⟩ hi ho hs a n
  refine ⟨?_, fun hal => ?_, fun hal hin => ?_⟩
  · rintro ⟨i, hin, hpast⟩
    obtain ⟨f, hr⟩ := route_buffer_past_end hs ho hb hin hpast
    exact ⟨f, step_error hi hr⟩
  · by_cases hlt : a < s.bufBytes
    · have hend := buffer_aligned_end hs ho hb hal hlt
      exact .inr fun i hin => by omega
    · exact .inl fun i _ => by omega
  · have hlt : a < s.bufBytes := Nat.lt_of_le_of_lt (Nat.le_add_right _ 0) (hin 0 (Nat.two_pow_pos _))
    obtain ⟨y, hr⟩ := route_buffer_inside hs ho hal hlt
    exact ⟨_, accessData (s.setInbox rest) y, step_ok hi hr, by simp⟩

end Sys2Proof.Machine
end

section
/-! SUPPORT. The opcode map as a table, the host's buffer loads and `csum` as runs of the block, for the statements of
30_encoding.md. -/

namespace Sys2Proof.Machine

/-! ## The opcode map (30_encoding.md R82) -/

/-- The eleven legal command words of R82 with their commands. -/
def legalWords : List (Word × Instr) :=
  [(0x00000000, .nop), (0x00000001, .clr), (0x00000002, .add), (0x00000103, .feed 1), (0x00000203, .feed 2),
   (0x00000303, .feed 3), (0x00000403, .feed 4), (0x00000004, .fin), (0x00000005, .phb), (0x00000006, .pha),
   (0x00000007, .val)]

theorem encode_mem_legalWords {i : Instr} (hw : WellFormed i) : (encode i, i) ∈ legalWords := by
  cases i
  case feed n => revert n; decide
  all_goals decide

theorem decode_of_mem_legalWords : ∀ p ∈ legalWords, decode p.1 = .ok p.2 := by
  decide

theorem decode_eq_ok_iff_mem_legalWords (w : Word) (i : Instr) : decode w = .ok i ↔ (w, i) ∈ legalWords := by
  refine ⟨fun hd => ?_, decode_of_mem_legalWords (w, i)⟩
  obtain ⟨hw, rfl, -⟩ := decode_ok_spec w i hd
  exact encode_mem_legalWords hw

/-- A word that decodes to no command raises CmdError(CMD) (R81). -/
theorem runCommand_of_not_decode {w : Word} (hd : ∀ i, decode w ≠ .ok i) (s : State) :
    runCommand w s = .next (s.raise .cmd) := by
  unfold runCommand
  cases h : decode w with
  | ok i => exact absurd h (hd i)
  | error e => rfl

/-- Settles O2: the words that decode are the encodings of the well-formed commands, which the table lists. -/
theorem legalWordsAreTheEleven : Obligations.LegalWordsAreTheEleven :=
  ⟨decode_eq_ok_iff_mem_legalWords, fun w s hout =>
    runCommand_of_not_decode (fun i hd => hout i ((decode_eq_ok_iff_mem_legalWords w i).1 hd)) s⟩

/-! ## Writing and reading back a range of BUF (10_state.md R46) -/

theorem Memory.insertAll_append (m : Memory) (a : Nat) (xs ys : List Byte) :
    m.insertAll a (xs ++ ys) = (m.insertAll a xs).insertAll (a + xs.length) ys := by
  induction xs generalizing m a with
  | nil => rfl
  | cons x xs ih =>
    rw [List.cons_append, Memory.insertAll, ih, Memory.insertAll, List.length_cons, Nat.add_assoc a 1, Nat.add_comm 1]

theorem State.memRead_memWrite (s : State) (a : Nat) (bs : List Byte) : (s.memWrite a bs).memRead a bs.length = bs := by
  refine List.ext_getElem (by simp) fun i hi hi' => ?_
  rw [State.memRead_getElem, State.byteAt_memWrite, dif_pos ⟨Nat.le_add_right a i, by omega⟩]
  simp only [Nat.add_sub_cancel_left]

/-! ## Buffer loads (30_encoding.md R89, 20_memory.md R66, R68) -/

/-- `BufferWrites a bs xs`: the transactions `xs` are aligned buffer writes whose bytes, one write after the other, are `bs`
from offset `a` on. -/
inductive BufferWrites : Nat → List Byte → List Transaction → Prop where
  | nil (a : Nat) : BufferWrites a [] []
  | cons {a : Nat} {bs : List Byte} {xs : List Transaction} (code : BitVec 2) (d : Word) :
      code ≠ 3 → a % 2 ^ code.toNat = 0 → BufferWrites (a + 2 ^ code.toNat) bs xs →
        BufferWrites a (laneBytes (2 ^ code.toNat) d ++ bs) (writeBuf code a d :: xs)

/-- A byte write carries its byte. -/
theorem BufferWrites.byte {a : Nat} {bs : List Byte} {xs : List Transaction} (b : Byte) (h : BufferWrites (a + 1) bs xs) :
    BufferWrites a (b :: bs) (writeBuf 0 a (b.setWidth 32) :: xs) := by
  have hlane : laneBytes 1 (b.setWidth 32) = [b] := congrArg (· :: []) (lane_setWidth b)
  have := BufferWrites.cons 0 (b.setWidth 32) (by decide) (Nat.mod_one a) h
  rwa [show 2 ^ (0 : BitVec 2).toNat = 1 from rfl, hlane] at this

/-- A merged write carries its four bytes. -/
theorem BufferWrites.word {a : Nat} {bs : List Byte} {xs : List Transaction} (b0 b1 b2 b3 : Byte) (ha : a % 4 = 0)
    (h : BufferWrites (a + 4) bs xs) :
    BufferWrites a (b0 :: b1 :: b2 :: b3 :: bs) (writeBuf 2 a (b3 ++ b2 ++ b1 ++ b0) :: xs) := by
  obtain ⟨h0, h1, h2, h3⟩ := lane_append b0 b1 b2 b3
  have hlane : laneBytes 4 (b3 ++ b2 ++ b1 ++ b0) = [b0, b1, b2, b3] := by
    show [lane _ 0, lane _ 1, lane _ 2, lane _ 3] = _
    rw [h0, h1, h2, h3]
  have := BufferWrites.cons 2 (b3 ++ b2 ++ b1 ++ b0) (by decide) ha h
  rwa [show 2 ^ (2 : BitVec 2).toNat = 4 from rfl, hlane] at this

theorem loadBytes_bufferWrites (a : Nat) (bs : List Byte) : BufferWrites a bs (loadBytes a bs) := by
  induction bs generalizing a with
  | nil => exact .nil a
  | cons b bs ih => exact .byte b (ih (a + 1))

theorem loadMerged_bufferWrites (a : Nat) (bs : List Byte) : BufferWrites a bs (loadMerged a bs) := by
  induction a, bs using loadMerged.induct with
  | case1 a b0 b1 b2 b3 bs ha ih =>
    rw [loadMerged, if_pos ha]
    exact .word b0 b1 b2 b3 ha ih
  | case2 a b0 b1 b2 b3 bs ha ih =>
    rw [loadMerged, if_neg ha]
    exact .byte b0 ih
  | case3 a b bs hshort ih =>
    rw [loadMerged]
    · exact .byte b ih
    · exact hshort
  | case4 a =>
    rw [loadMerged]
    exact .nil a

@[simp] theorem loadBytes_length (a : Nat) (bs : List Byte) : (loadBytes a bs).length = bs.length := by
  induction bs generalizing a with
  | nil => rfl
  | cons b bs ih => rw [loadBytes, List.length_cons, ih, List.length_cons]

/-- The state after `n` buffer writes that carry `bs` from `a` on, with `rest` still waiting. -/
def State.loaded (s : State) (a : Nat) (bs : List Byte) (n : Nat) (rest : List PortEvent) : State :=
  { s.memWrite a bs with inbox := rest, outbox := s.outbox ++ List.replicate n (.okay 0) }

theorem State.loaded_nil {s : State} {rest : List PortEvent} (a : Nat) (hi : s.inbox = rest) :
    s.loaded a [] 0 rest = s := by
  subst hi
  simp [State.loaded, State.memWrite, Memory.insertAll]

/-- Loading in two parts is loading at once. -/
theorem State.loaded_loaded (s : State) (a m n : Nat) (xs ys : List Byte) (evs rest : List PortEvent) :
    (s.loaded a xs m evs).loaded (a + xs.length) ys n rest = s.loaded a (xs ++ ys) (m + n) rest := by
  simp [State.loaded, State.memWrite, Memory.insertAll_append]

/-- One aligned buffer write is a load of its lanes. -/
theorem step_writeBuf_loaded {s : State} {code : BitVec 2} {a : Nat} {d : Word} {rest : List PortEvent} (hc : code ≠ 3)
    (ha : a % 2 ^ code.toNat = 0) (hlt : a < s.bufBytes) (hle : s.bufBytes ≤ 65536)
    (hi : s.inbox = .access (writeBuf code a d) :: rest) :
    step s = .next (s.loaded a (laneBytes (2 ^ code.toNat) d) 1 rest) :=
  step_ok hi (route_bufferAccess s.bufBytes true code a d hc ha hlt hle)

/-- Presenting buffer writes that carry `bs` and fit the buffer loads `bs`, whatever the sizes of the writes. -/
theorem run_bufferWrites {a : Nat} {bs : List Byte} {xs : List Transaction} (hx : BufferWrites a bs xs) {s : State}
    {rest : List PortEvent} (hi : s.inbox = xs.map .access ++ rest) (hle : s.bufBytes ≤ 65536)
    (hfit : a + bs.length ≤ s.bufBytes) : run xs.length s = .next (s.loaded a bs xs.length rest) := by
  induction hx generalizing s with
  | nil a => exact congrArg _ (State.loaded_nil a hi).symm
  | @cons a bs xs code d hc ha hx ih =>
    have hlen : (laneBytes (2 ^ code.toNat) d).length = 2 ^ code.toNat := by simp [laneBytes]
    have hpos : 0 < 2 ^ code.toNat := Nat.two_pow_pos _
    rw [List.length_append, hlen] at hfit
    have hstep : step s = .next (s.loaded a (laneBytes (2 ^ code.toNat) d) 1 (xs.map .access ++ rest)) :=
      step_writeBuf_loaded hc ha (by omega) hle hi
    have hrest := ih (s := s.loaded a (laneBytes (2 ^ code.toNat) d) 1 (xs.map .access ++ rest)) rfl hle
      ((Nat.add_assoc _ _ _).trans_le hfit)
    rw [List.length_cons, run_succ _ hstep, hrest, Nat.add_comm xs.length, ← State.loaded_loaded, hlen]

theorem State.byteAt_loaded (s : State) (a n c : Nat) (bs : List Byte) (rest : List PortEvent) :
    (s.loaded a bs n rest).byteAt c = if a ≤ c ∧ c < a + bs.length then bs.getD (c - a) 0 else s.byteAt c := by
  refine (s.byteAt_memWrite a c bs).trans ?_
  by_cases h : a ≤ c ∧ c < a + bs.length
  · have hlt : c - a < bs.length := by omega
    rw [dif_pos ⟨h.1, hlt⟩, if_pos h, List.getD_eq_getElem bs 0 hlt]
  · rw [dif_neg (by omega), if_neg h]

/-- Reading the loaded range gives the loaded bytes. -/
theorem State.memRead_loaded (s : State) (a n : Nat) (bs : List Byte) (rest : List PortEvent) :
    (s.loaded a bs n rest).memRead a bs.length = bs :=
  (State.memRead_congr (s := s.memWrite a bs) rfl rfl a bs.length).trans (s.memRead_memWrite a bs)

/-- `load A, bytes` ends with the bytes at A. -/
theorem run_load {s : State} {a : Nat} {bs : List Byte} {rest : List PortEvent}
    (hi : s.inbox = (Line.load a bs).expand.map .access ++ rest) (hle : s.bufBytes ≤ 65536)
    (hfit : a + bs.length ≤ s.bufBytes) :
    ∃ t, run bs.length s = .next t ∧ t.inbox = rest ∧ t.bufBytes = s.bufBytes ∧ t.memRead a bs.length = bs := by
  have hrun := run_bufferWrites (loadBytes_bufferWrites a bs) hi hle hfit
  rw [loadBytes_length] at hrun
  exact ⟨_, hrun, rfl, rfl, s.memRead_loaded a bs.length bs rest⟩

/-- Settles O42: both loads are buffer writes that carry the same bytes. -/
theorem mergedLoadEqualsByteLoad : Obligations.MergedLoadEqualsByteLoad := by
  intro s a bs hle hfit present
  have loads (xs : List Transaction) (hx : BufferWrites a bs xs) :
      run xs.length (present xs) = .next ((present xs).loaded a bs xs.length []) :=
    run_bufferWrites hx (List.append_nil _).symm hle hfit
  exact ⟨_, _, loads _ (loadBytes_bufferWrites a bs), loads _ (loadMerged_bufferWrites a bs),
    (State.byteAt_loaded _ a _ · bs []), fun c => rfl⟩

/-! ## The host's register lines (30_encoding.md R88) -/

theorem registerAt_offset (r : RegName) : registerAt r.offset = some r := by
  cases r <;> rfl

/-- Every register has an aligned slot in the register window (10_state.md R22). -/
theorem RegName.offset_slot (r : RegName) : r.offset < 0x100 ∧ r.offset % 4 = 0 := by
  cases r <;> decide

/-- A register write that the register takes. -/
theorem step_writeReg {s : State} {r : RegName} {v : Word} {x : Access} {rest : List PortEvent}
    (hx : r.writeAccess v = some x) (hi : s.inbox = .access (writeReg r v) :: rest) :
    step s = .next ((accessEffect (s.setInbox rest) x).respond (.okay (accessData (s.setInbox rest) x))) :=
  step_writeRegister r.offset r x r.offset_slot.1 r.offset_slot.2 (registerAt_offset r) hx hi

/-- A CMD write of a command's word runs the command. -/
theorem step_issue {s : State} {i : Instr} {rest : List PortEvent} (hw : WellFormed i)
    (hi : s.inbox = .access (issue i) :: rest) : step s = .next ((effect i (s.setInbox rest)).respond (.okay 0)) := by
  rw [← commandEffect_of_decode (s.setInbox rest) (decode_encode i hw)]
  exact step_command hi

theorem step_readRegAt {s : State} {r : RegName} {rest : List PortEvent} (hi : s.inbox = .access (readRegAt r) :: rest) :
    step s = .next { s with inbox := rest, outbox := s.outbox ++ [.okay (s.readReg r)] } :=
  step_readRegister r.offset r r.offset_slot.1 r.offset_slot.2 (registerAt_offset r) hi

/-! ## `sum` and `csum` (30_encoding.md R89) -/

/-- FIN's value for a stream (40_checksum_engine.md R109). -/
theorem StreamOf.finish_acc {bs : List Byte} {s : State} (h : StreamOf bs s) : finish s.acc = compute bs :=
  h.accumulates.1.finish_eq_compute

/-- An ADD in range continues the stream with its range (R106). -/
theorem StreamOf.add {bs : List Byte} {s : State} (h : StreamOf bs s) (hr : s.InRange) :
    StreamOf (bs ++ s.operandBytes) (effect .add s) := by
  have hfed : fedBytes .add s = s.operandBytes := if_pos ((rangeOk_iff s).2 hr)
  exact hfed ▸ .fed bs s _ .add h (.inl rfl) (exec_eq_effect s .add)

/-- A program presented at an idle port: its first line's transactions, then the others'. -/
theorem present_inbox_cons {s : State} (h : s.inbox = []) (line : Line) (program : List Line) :
    (s.present (line :: program)).inbox =
      line.expand.map .access ++ (program.flatMap Line.expand).map .access := by
  simp [State.present, h]

/-- An ADDR write and a LEN write set the range of ADD and VAL. -/
theorem run_writeRange {s : State} {a l : Word} {rest : List PortEvent}
    (hi : s.inbox = .access (writeReg .ADDR a) :: .access (writeReg .LEN l) :: rest) :
    ∃ t, run 2 s = .next t ∧
      t = { s with addr := a, len := l, inbox := rest, outbox := s.outbox ++ [.okay 0] ++ [.okay 0] } := by
  have haddr := step_writeReg (x := .writeOperand .ADDR a) rfl hi
  refine ⟨_, (run_succ 1 haddr).trans (run_succ 0 ?_), rfl⟩
  exact step_writeReg (r := .LEN) (v := l) (x := .writeOperand .LEN l) rfl rfl

section
variable {s : State} {a l : Word} {rest : List PortEvent} (hr : a.toNat + l.toNat ≤ s.bufBytes)
include hr

/-- `sum A, L` continues the stream with BUF[A .. A+L). -/
theorem run_expandSum {bs : List Byte} (hs : StreamOf bs s) (hi : s.inbox = (expandSum a l).map .access ++ rest) :
    ∃ t, run 3 s = .next t ∧ t.inbox = rest ∧ StreamOf (bs ++ s.memRead a.toNat l.toNat) t := by
  obtain ⟨u, hrange, hu⟩ := run_writeRange hi
  have hadd := step_issue (i := .add) rfl (congrArg State.inbox hu)
  have hstream : StreamOf (bs ++ s.memRead a.toNat l.toNat) (effect .add (u.setInbox rest)) := by
    have hkept : StreamOf bs (u.setInbox rest) := .kept bs s _ hs (by rw [hu]; rfl) (by rw [hu]; rfl)
    subst hu
    exact hkept.add hr
  exact ⟨_, (run_add 2 1 hrange).trans (run_succ 0 hadd), by simp, .kept _ _ _ hstream rfl rfl⟩

/-- `csum A, L` leaves the checksum of BUF[A .. A+L) in RESULT. -/
theorem run_csum (hi : s.inbox = (Line.csum a l).expand.map .access ++ rest) :
    ∃ t, run 5 s = .next t ∧ t.inbox = rest ∧ t.result = compute (s.memRead a.toNat l.toNat) := by
  have hclr := step_issue (i := .clr) rfl hi
  obtain ⟨t, hsum, hin, hstream⟩ := run_expandSum (bs := []) (rest := .access (issue .fin) :: rest)
    (s := (effect .clr (s.setInbox ((expandSum a l ++ [issue .fin]).map .access ++ rest))).respond (.okay 0)) hr
    (.start _ rfl rfl) rfl
  have hfin := step_issue (i := .fin) rfl hin
  exact ⟨_, (run_succ 4 hclr).trans ((run_add 3 1 hsum).trans (run_succ 0 hfin)), rfl, hstream.finish_acc⟩

end

/-- Settles O43: the load puts the bytes into BUF, `csum` streams them, and RESULT is read back. -/
theorem hostProgramReadsTheChecksum : Obligations.HostProgramReadsTheChecksum := by
  intro s a bs hempty hle hfit
  have ha : (BitVec.ofNat 32 a).toNat = a := Nat.mod_eq_of_lt (by omega)
  have hl : (BitVec.ofNat 32 bs.length).toNat = bs.length := Nat.mod_eq_of_lt (by omega)
  have hpresent := present_inbox_cons hempty (.load a bs)
    [.csum (BitVec.ofNat 32 a) (BitVec.ofNat 32 bs.length), .rreg .RESULT]
  obtain ⟨u, hload, hin, hbytes, hrange⟩ := run_load hpresent hle hfit
  have hr : (BitVec.ofNat 32 a).toNat + (BitVec.ofNat 32 bs.length).toNat ≤ u.bufBytes := by
    rw [ha, hl, hbytes]
    exact hfit
  obtain ⟨t, hcsum, hin, hresult⟩ := run_csum (rest := [.access (readRegAt .RESULT)]) hr hin
  rw [ha, hl, hrange] at hresult
  have hread := step_readRegAt hin
  refine ⟨_, (run_add bs.length 6 hload).trans ((run_add 5 1 hcsum).trans (run_succ 0 hread)), rfl, ?_⟩
  rw [List.getLast?_concat, ← hresult, BitVec.ofNat_toNat]
  rfl

end Sys2Proof.Machine
end

section
/-! SUPPORT. What the engine's commands do, and the stream they leave in ACC, for the statements of 40_checksum_engine.md. -/

namespace Sys2Proof.Machine

/-! ## NOP and CLR (40_checksum_engine.md R105, R107) -/

/-- Where `v` is the only legal word with its OPC, every other word with that OPC raises CmdError(CMD) (30_encoding.md R81). -/
theorem runCommand_of_malformed {opc : Nat} {v w : Word}
    (honly : ∀ p ∈ legalWords, p.1.toNat % 256 = opc → p.1 = v) (hopc : w.toNat % 256 = opc) (hne : w ≠ v) (s : State) :
    runCommand w s = .next { s with errCmd := true } :=
  runCommand_of_not_decode
    (fun i hd => hne (honly (w, i) ((decode_eq_ok_iff_mem_legalWords w i).1 hd) hopc)) s

/-- Settles O8: 0 is the only legal word with OPC 0x00. -/
theorem nopChangesNothing : Obligations.NopChangesNothing :=
  ⟨decode_encode .nop rfl, fun _ => runCommand_of_malformed (by decide), (exec_eq_effect · .nop)⟩

/-- Settles O9: 1 is the only legal word with OPC 0x01. -/
theorem clrClearsTheStream : Obligations.ClrClearsTheStream :=
  ⟨decode_encode .clr rfl, fun _ => runCommand_of_malformed (by decide), (exec_eq_effect · .clr)⟩

/-! ## ADD and FEED (R106, R108) -/

/-- ADD's range, byte by byte. -/
theorem operandBytes_eq_map_frameFn (s : State) : s.operandBytes = (List.range s.len.toNat).map s.frameFn := rfl

/-- Settles O10: ADD in range is `feedBytes` of its range. -/
theorem addStreamsTheRange : Obligations.AddStreamsTheRange := by
  refine ⟨decode_encode .add rfl, fun s => ⟨fun hr => ?_, fun hr => ?_⟩⟩
  · rw [exec_eq_effect, effect_add_of_inRange hr, State.feedBytes_eq, operandBytes_eq_map_frameFn]
    rfl
  · rw [exec_eq_effect, effect_of_not_inRange (.inl rfl) hr]
    rfl

/-- FEED with an N that some word encodes streams the low N bytes of DATA (R108). -/
theorem effect_feed_of_legal {n : BitVec 3} (hn : feedCountLegal n) (s : State) :
    effect (.feed n) s = s.feedBytes (feedOperand n.toNat s.data) :=
  if_pos hn

/-- FEED with any other N raises CmdError(CMD) and does nothing else (log entry 13). -/
theorem effect_feed_of_not_legal {n : BitVec 3} (hn : ¬ feedCountLegal n) (s : State) :
    effect (.feed n) s = s.raise .cmd :=
  if_neg hn

/-- Settles O11: FEED is `feedBytes` of the bytes of DATA as numbers. -/
theorem feedStreamsDataBytes : Obligations.FeedStreamsDataBytes := by
  refine ⟨⟨decode_encode (.feed 1) rfl, decode_encode (.feed 2) rfl, decode_encode (.feed 3) rfl,
    decode_encode (.feed 4) rfl⟩, fun s n => ⟨fun hn => ?_, fun hn => ?_⟩⟩
  · rw [exec_eq_effect, effect_feed_of_legal hn, State.feedBytes_eq, feedOperand_eq]
    rfl
  · rw [exec_eq_effect, effect_feed_of_not_legal hn]
    rfl

/-! ## The accumulator's sum and the fold (R102, R103) -/

/-- Settles O14: the carry is the quotient by 2^32, which is 1 or 0. -/
theorem accAddCarriesAround : Obligations.AccAddCarriesAround := by
  intro a v
  have ha := a.isLt
  have hv := v.isLt
  refine ⟨?_, accAdd_mod a v, ?_⟩
  · rw [accAdd_toNat]
    split <;> omega
  · simpa [← BitVec.toNat_inj] using accAdd_toNat_eq_zero a v

/-- One fold (R103): the high part added into the low 16 bits. -/
def foldOnce (n : Nat) : Nat := n / 65536 + n % 65536

theorem foldOnce_le {n : Nat} (h : n < 2 ^ 32) : foldOnce n ≤ 0x1FFFE := by
  unfold foldOnce; omega

/-- After a fold that carries, the low 16 bits have room for the carry. -/
theorem foldOnce_low_le {n : Nat} (h : n < 2 ^ 32) (hc : foldOnce n / 65536 = 1) : foldOnce n % 65536 ≤ 0xFFFE := by
  have := foldOnce_le h
  omega

/-- Two folds reach 16 bits. -/
theorem foldOnce_foldOnce_le {n : Nat} (h : n < 2 ^ 32) : foldOnce (foldOnce n) ≤ 0xFFFF := by
  have := foldOnce_le h
  rw [foldOnce]
  omega

theorem fold16_toNat (a : Word) : (fold16 a).toNat = foldOnce (foldOnce a.toNat) :=
  Nat.mod_eq_of_lt (Nat.lt_succ_of_le (foldOnce_foldOnce_le a.isLt))

theorem fold16_mod (a : Word) : (fold16 a).toNat % 65535 = a.toNat % 65535 := by
  rw [fold16_residue]
  split <;> omega

theorem fold16_toNat_eq_zero (a : Word) : (fold16 a).toNat = 0 ↔ a = 0 := by
  rw [fold16_residue, ← BitVec.toNat_inj]
  split
  case isTrue h => simp [h]
  case isFalse h => simp [h]

/-- Settles O13: both the two folds and the source's loop end at the residue of `fold16_residue`. -/
theorem foldKeepsTheResidue : Obligations.FoldKeepsTheResidue := fun a =>
  ⟨foldOnce_le a.isLt, foldOnce_low_le a.isLt, foldOnce_foldOnce_le a.isLt, fold16_toNat a,
    (fold16_residue a).trans (foldCarries_eq _ _ (Nat.le_refl _)).symm, fold16_mod a, fold16_toNat_eq_zero a⟩

/-! ## FIN (R109, R110) -/

/-- Settles O12: the complement of 16 bits is their distance from 0xFFFF. -/
theorem finWritesTheFoldedComplement : Obligations.FinWritesTheFoldedComplement := by
  intro s
  have hfinish : finish s.acc = BitVec.ofNat 16 (0xFFFF - foldOnce (foldOnce s.acc.toNat)) := by
    rw [← fold16_toNat, ← finish_toNat, BitVec.ofNat_toNat, BitVec.setWidth_eq]
  rw [exec_eq_effect, effect, hfinish]
  rfl

/-- Settles O15: ACC accumulates the stream's word sum, and FIN folds it. -/
theorem finGivesComputeOfTheStream : Obligations.FinGivesComputeOfTheStream := by
  intro bs s h
  obtain ⟨⟨hres, hzero, hexact⟩, hphase⟩ := h.accumulates
  refine ⟨?_, hphase, hexact, hres, ?_⟩
  · rw [exec_eq_effect, effect, h.finish_acc]
    rfl
  · rw [← hzero, ← BitVec.toNat_inj]
    rfl

/-- FIN's RESULT is the source's checksum of the stream. -/
theorem StreamOf.fin_result {bs : List Byte} {s t : State} (h : StreamOf bs s) (ht : exec .fin s = .next t) :
    t.result = compute bs := by
  obtain rfl := (exec_next_iff s .fin t).1 ht
  exact h.finish_acc

/-! ## Streams cut into commands (R114) -/

/-- ACC and PHASE. -/
def State.stream (s : State) : Word × Bool := (s.acc, s.phase)

theorem State.stream_eq_iff {s t : State} : s.stream = t.stream ↔ s.acc = t.acc ∧ s.phase = t.phase :=
  Prod.ext_iff

/-- What feeding leaves in ACC and PHASE depends on ACC, PHASE and the bytes alone. -/
theorem State.feedBytes_stream_congr {s t : State} (h : s.stream = t.stream) (bs : List Byte) :
    (s.feedBytes bs).stream = (t.feedBytes bs).stream := by
  obtain ⟨ha, hp⟩ := State.stream_eq_iff.1 h
  rw [State.feedBytes_eq, State.feedBytes_eq, ha, hp]
  rfl

/-- ADD, FEED and PHA leave in ACC and PHASE what feeding their bytes leaves. -/
theorem effect_stream_eq_feedBytes {i : Instr} (s : State) (hi : i = .add ∨ i = .pha ∨ ∃ n, i = .feed n) :
    (effect i s).stream = (s.feedBytes (fedBytes i s)).stream := by
  rcases hi with rfl | rfl | ⟨n, rfl⟩
  · simp only [effect, fedBytes]
    split <;> rfl
  · rfl
  · simp only [effect, fedBytes]
    split <;> rfl

/-- ACC and PHASE are what feeding the whole stream at once after a reset leaves. -/
theorem StreamOf.stream_eq_feedBytes_reset {bs : List Byte} {s : State} (h : StreamOf bs s) :
    s.stream = (State.reset.feedBytes bs).stream := by
  induction h with
  | start s ha hp => exact State.stream_eq_iff.2 ⟨ha, hp⟩
  | kept bs s t _ ha hp ih => exact (State.stream_eq_iff.2 ⟨ha, hp⟩).trans ih
  | fed bs s t i _ hi ht ih =>
    obtain rfl := (exec_next_iff s i t).1 ht
    rw [State.feedBytes_append, effect_stream_eq_feedBytes s hi]
    exact State.feedBytes_stream_congr ih _

/-- Settles O17: every cut of a stream ends where the whole stream after a reset ends. -/
theorem streamsConcatenate : Obligations.StreamsConcatenate := by
  refine ⟨fun bs s s' h h' => ?_, fun bs s i h hi => ?_⟩
  · exact State.stream_eq_iff.1 (h.stream_eq_feedBytes_reset.trans h'.stream_eq_feedBytes_reset.symm)
  · obtain ⟨ha, hp⟩ := effect_stream_unchanged s (or_left_comm.1 hi)
    exact ⟨effect i s, exec_eq_effect s i, .kept bs s _ h ha hp⟩

/-- ADD of BUF[a .. a+n), a range in the buffer, streams its bytes and leaves the buffer (R106). -/
theorem exec_add_range (s : State) {a n : Nat} (hr : a + n ≤ s.bufBytes) (hb : s.bufBytes ≤ 65536) :
    ∃ t, exec .add { s with addr := BitVec.ofNat 32 a, len := BitVec.ofNat 32 n } = .next t ∧
      t.stream = (s.feedBytes (s.memRead a n)).stream ∧ t.bufBytes = s.bufBytes ∧ t.buf = s.buf ∧ t.epoch = s.epoch := by
  have ha : (BitVec.ofNat 32 a).toNat = a := Nat.mod_eq_of_lt (by omega)
  have hn : (BitVec.ofNat 32 n).toNat = n := Nat.mod_eq_of_lt (by omega)
  refine ⟨_, exec_eq_effect _ _, ?_, by simp, by simp, by simp⟩
  rw [effect_add_of_inRange (by rw [State.InRange, ha, hn]; exact hr), State.operandBytes, ha, hn]
  refine State.feedBytes_stream_congr ?_ _
  rfl

/-- Settles O16: the two pieces' bytes, one after the other, are the whole range's. -/
theorem addInPiecesIsAddAtOnce : Obligations.AddInPiecesIsAddAtOnce := by
  intro s a m n hr hb
  obtain ⟨t1, hadd1, hstream1, hbytes, hbuf, hepoch⟩ := exec_add_range s (a := a) (n := m) (by omega) hb
  obtain ⟨t2, hadd2, hstream2, -⟩ := exec_add_range t1 (a := a + m) (n := n) (by omega) (by omega)
  obtain ⟨t, hadd, hstream, -⟩ := exec_add_range s (a := a) (n := m + n) (by omega) hb
  refine ⟨t1, t2, t, hadd1, hadd2, hadd, State.stream_eq_iff.1 ?_⟩
  rw [hstream2, hstream, State.memRead_append, State.feedBytes_append, State.memRead_congr hbuf hepoch]
  exact State.feedBytes_stream_congr hstream1 _

/-! ## Checksums of related streams (R111) -/

/-- The checksum depends on the word sum alone. -/
theorem compute_congr {xs ys : List Byte} (h : wordSum xs = wordSum ys) : compute xs = compute ys := by
  unfold compute
  rw [h]

/-- A zero byte at the end adds nothing to the word sum. -/
theorem wordSum_append_zero (bs : List Byte) : wordSum (bs ++ [0]) = wordSum bs := by
  simp [wordSum_append_byte]

/-- Settles O18: the padding leaves the word sum. -/
theorem paddingKeepsTheChecksum : Obligations.PaddingKeepsTheChecksum := by
  refine ⟨fun s t h ht => h.fin_result ht, fun bs s s' t t' _ h h' ht ht' => ?_, fun bs s s' t t' _ h h' ht ht' => ?_⟩
  · rw [h.fin_result ht, h'.fin_result ht']
    exact compute_congr (wordSum_append_zero bs).symm
  · rw [h.fin_result ht, h'.fin_result ht']
    have hsum : wordSum (bs ++ [0, 0]) = wordSum bs := by
      rw [List.append_cons, wordSum_append_zero, wordSum_append_zero]
    exact compute_congr hsum.symm

/-- A word at an even position adds its value to the word sum. -/
theorem wordSum_word_at_even {xs : List Byte} (hx : xs.length % 2 = 0) (h l : Byte) (ys : List Byte) :
    wordSum (xs ++ [h, l] ++ ys) = wordSum xs + wordSum ys + (h.toNat * 256 + l.toNat) := by
  rw [List.append_assoc, wordSum_append _ _ hx, List.cons_append, List.cons_append, List.nil_append, wordSum_cons_cons]
  omega

/-- A stream whose word sum is another's plus the other's checksum checks to 0. -/
theorem compute_eq_zero {bs cs : List Byte} (h : wordSum cs = wordSum bs + (compute bs).toNat) : compute cs = 0 := by
  apply BitVec.eq_of_toNat_eq
  have hb := compute_toNat bs
  rw [compute_toNat]
  simp only [BitVec.ofNat_eq_ofNat, BitVec.toNat_ofNat]
  split <;> split at hb <;> omega

/-- Settles O19: the checksum's two bytes add its value to the word sum. -/
theorem checksumVerifiesToZero : Obligations.ChecksumVerifiesToZero := by
  intro xs ys s s' t t' hx h ht h' ht'
  rw [h'.fin_result ht']
  refine compute_eq_zero (bs := xs ++ [0, 0] ++ ys) ?_
  have hlt := t.result.isLt
  rw [← h.fin_result ht, wordSum_word_at_even hx, wordSum_word_at_even hx]
  simp only [BitVec.ofNat_eq_ofNat, BitVec.toNat_ofNat]
  omega

/-! ## Streams of whole words (R111 item 5) -/

/-- The value of a word. -/
def wordValue (w : Byte × Byte) : Nat := w.1.toNat * 256 + w.2.toNat

theorem wordSum_flatMap_words (ws : List (Byte × Byte)) :
    wordSum (ws.flatMap fun w => [w.1, w.2]) = (ws.map wordValue).sum := by
  induction ws with
  | nil => rfl
  | cons w ws ih =>
    rw [List.flatMap_cons, List.cons_append, List.cons_append, List.nil_append, wordSum_cons_cons, ih, List.map_cons,
      List.sum_cons, wordValue]

/-- Exchanging the bytes of every word multiplies the sum by 256 modulo 0xFFFF, and a sum stays 0 only if it was 0. -/
theorem wordSum_swapped (ws : List (Byte × Byte)) :
    wordSum (ws.flatMap fun w => [w.2, w.1]) % 65535 = 256 * wordSum (ws.flatMap fun w => [w.1, w.2]) % 65535 ∧
      (wordSum (ws.flatMap fun w => [w.2, w.1]) = 0 ↔ wordSum (ws.flatMap fun w => [w.1, w.2]) = 0) := by
  induction ws with
  | nil => exact ⟨rfl, Iff.rfl⟩
  | cons w ws ih =>
    obtain ⟨hres, hzero⟩ := ih
    simp only [List.flatMap_cons, List.cons_append, List.nil_append, wordSum_cons_cons]
    exact ⟨by omega, by omega⟩

/-- A checksum of a sum 256 times another's modulo 0xFFFF is the other's with its bytes exchanged. -/
theorem compute_swapped {bs cs : List Byte} (hres : wordSum cs % 65535 = 256 * wordSum bs % 65535)
    (hzero : wordSum cs = 0 ↔ wordSum bs = 0) :
    (compute cs).toNat = (compute bs).toNat % 256 * 256 + (compute bs).toNat / 256 := by
  rw [compute_toNat, compute_toNat]
  split <;> split <;> omega

/-- Settles O20: a permutation keeps the word sum, and 256 * 256 is 1 modulo 0xFFFF. -/
theorem wordOrderAndByteSwap : Obligations.WordOrderAndByteSwap := by
  intro ws ws' s s' s'' t t' t'' hperm h h' h'' ht ht' ht''
  obtain ⟨hres, hzero⟩ := wordSum_swapped ws
  rw [h.fin_result ht, h'.fin_result ht', h''.fin_result ht'']
  refine ⟨compute_congr ?_, compute_swapped hres hzero⟩
  rw [wordSum_flatMap_words, wordSum_flatMap_words]
  exact (hperm.symm.map wordValue).sum_eq

end Sys2Proof.Machine
end

section
/-! SUPPORT. What the pseudo-header builder's commands do, and the stream they feed, for the statements of
41_pseudo_header.md. -/

namespace Sys2Proof.Machine

/-! ## PHB (41_pseudo_header.md R132) -/

/-- Settles O21: PHDR2 is the bytes 0x0006, then PH_LEN. -/
theorem phbBuildsThePseudoHeader : Obligations.PhbBuildsThePseudoHeader := by
  refine ⟨decode_encode .phb rfl, fun s => ?_⟩
  rw [exec_eq_effect, effect, ← phdr2Of_toNat, BitVec.ofNat_toNat, BitVec.setWidth_eq]
  rfl

/-! ## PHA (R131, R133) -/

/-- The twelve bytes of PHDR0 to PHDR2 as numbers (R131). -/
theorem phBytes_eq_map_range (s : State) :
    s.phBytes = (List.range 12).map fun j =>
      BitVec.ofNat 8 (([s.phdr0, s.phdr1, s.phdr2].getD (j / 4) 0).toNat / 2 ^ (24 - 8 * (j % 4))) := by
  rw [State.phBytes, wordBytes_eq, wordBytes_eq, wordBytes_eq]
  rfl

/-- Settles O22: PHA is `feedBytes` of the twelve bytes. -/
theorem phaStreamsThePseudoHeader : Obligations.PhaStreamsThePseudoHeader := by
  refine ⟨decode_encode .pha rfl, fun s => ?_⟩
  rw [exec_eq_effect, effect, State.feedBytes_eq, phBytes_eq_map_range]
  rfl

/-- A word whose low byte has not come yet. -/
theorem be16_zero_right_toNat (h : Byte) : (be16 h 0).toNat = h.toNat * 256 :=
  (be16_toNat h 0).trans (Nat.add_zero _)

/-- A low byte alone. -/
theorem be16_zero_left_toNat (l : Byte) : (be16 0 l).toNat = l.toNat :=
  (be16_toNat 0 l).trans (Nat.zero_add _)

/-- With PHASE = 0, two bytes are the high and the low part of one word (R101). -/
theorem State.feedByte_feedByte_eq {s : State} (hp : s.phase = false) (h l : Byte) :
    (s.feedByte h).feedByte l = s.setStream (accAdd (accAdd s.acc (be16 h 0)) (be16 0 l)) false := by
  simp only [State.feedByte_eq, State.setStream_acc, State.setStream_phase, hp]
  rfl

/-- Adding a word's high and low part adds the word modulo 0xFFFF. -/
theorem accAdd_high_low_mod (a : Word) (h l : Byte) :
    (accAdd (accAdd a (be16 h 0)) (be16 0 l)).toNat % 65535 = (a.toNat + (h.toNat * 256 + l.toNat)) % 65535 := by
  rw [accAdd_mod, be16_zero_left_toNat, ← Nat.mod_add_mod, accAdd_mod, be16_zero_right_toNat, Nat.mod_add_mod,
    Nat.add_assoc]

/-- With PHASE = 0, feeding adds the word sum of the bytes to ACC modulo 0xFFFF (R102). -/
theorem State.feedBytes_residue {s : State} (hp : s.phase = false) (bs : List Byte) :
    (s.feedBytes bs).acc.toNat % 65535 = (s.acc.toNat + wordSum bs) % 65535 := by
  match bs with
  | [] => rfl
  | [h] =>
    rw [State.feedBytes, State.feedBytes, State.feedByte_eq, hp, wordSum_singleton, ← be16_zero_right_toNat]
    exact accAdd_mod s.acc (be16 h 0)
  | h :: l :: rest =>
    rw [State.feedBytes, State.feedBytes, State.feedByte_feedByte_eq hp, State.feedBytes_residue rfl rest,
      State.setStream_acc, ← Nat.mod_add_mod, accAdd_high_low_mod, Nat.mod_add_mod, wordSum_cons_cons, Nat.add_assoc]

@[simp] theorem wordBytes_length (w : Word) : (wordBytes w).length = 4 := rfl

theorem phBytes_length (s : State) : s.phBytes.length = 12 := by
  simp [State.phBytes]

/-- The words of a register are its halves. -/
theorem wordSum_wordBytes (w : Word) : wordSum (wordBytes w) = w.toNat / 65536 + w.toNat % 65536 := by
  have := w.isLt
  simp only [wordBytes, registerByte, wordSum_cons_cons, wordSum_nil, BitVec.toNat_ofNat]
  omega

/-- The six words of the pseudo-header are the halves of PHDR0 to PHDR2. -/
theorem wordSum_phBytes (s : State) :
    wordSum s.phBytes = s.phdr0.toNat / 65536 + s.phdr0.toNat % 65536 +
      (s.phdr1.toNat / 65536 + s.phdr1.toNat % 65536) + (s.phdr2.toNat / 65536 + s.phdr2.toNat % 65536) := by
  rw [State.phBytes, wordSum_append _ _ (by simp), wordSum_append _ _ (by simp), wordSum_wordBytes,
    wordSum_wordBytes, wordSum_wordBytes]

/-- Settles O23: the twelve bytes are six words, and twelve zero bytes add nothing. -/
theorem phaAddsSixWords : Obligations.PhaAddsSixWords := by
  refine fun s => ⟨fun hp => ⟨_, exec_eq_effect s .pha, ?_, ?_⟩, fun h0 h1 h2 => ?_⟩
  · rw [effect, State.feedBytes_phase, hp, phBytes_length]
    rfl
  · rw [effect, State.feedBytes_residue hp, wordSum_phBytes]
    simp only [Nat.add_assoc]
  · have hzeros : s.phBytes = List.replicate (2 * 6) 0 := by
      rw [State.phBytes, h0, h1, h2]
      rfl
    rw [exec_eq_effect, effect, hzeros, State.feedBytes_zeros]

/-! ## The builder's program (R134) -/

/-- A PHA continues the stream with the twelve bytes of the pseudo-header (R133). -/
theorem StreamOf.pha {bs : List Byte} {s : State} (h : StreamOf bs s) : StreamOf (bs ++ s.phBytes) (effect .pha s) :=
  .fed bs s _ .pha h (.inr (.inl rfl)) (exec_eq_effect s .pha)

/-- The bytes PHA feeds after PHB: the pseudo-header of PH_SRC, PH_DST and PH_LEN (R130). -/
theorem phBytes_effect_phb (s : State) :
    (effect .phb s).phBytes = pseudoHeader (wordBytes s.phSrc) (wordBytes s.phDst) s.phLen.toNat :=
  phBytes_eq_pseudoHeader s.phSrc s.phDst s.phLen

/-- Commands one after the other all complete, each in the state the one before it left. -/
theorem execSeq_eq_foldl (is : List Instr) (s : State) : execSeq is s = .next (is.foldl (fun t i => effect i t) s) := by
  induction is generalizing s with
  | nil => rfl
  | cons i is ih => rw [execSeq_cons, ih, List.foldl_cons]

/-- No command changes the range that ADD reads. -/
theorem operandBytes_effect (i : Instr) (s : State) : (effect i s).operandBytes = s.operandBytes := by
  rw [State.operandBytes, effect_addr, effect_len, State.memRead_congr (effect_buf s i) (effect_epoch s i)]
  rfl

/-- CLR, PHB and PHA start a stream with the pseudo-header of PH_SRC, PH_DST and PH_LEN. -/
theorem streamOf_clr_phb_pha (s : State) :
    StreamOf (pseudoHeader (wordBytes s.phSrc) (wordBytes s.phDst) s.phLen.toNat)
      (effect .pha (effect .phb (effect .clr s))) := by
  have hclr : StreamOf [] (effect .clr s) := .start _ rfl rfl
  have hphb : StreamOf [] (effect .phb (effect .clr s)) := .kept _ _ _ hclr rfl rfl
  exact phBytes_effect_phb (effect .clr s) ▸ hphb.pha

/-- Settles O24: after CLR the builder's stream is the pseudo-header, then ADD's range, and FIN folds it. -/
theorem builderComputesTheTcpChecksum : Obligations.BuilderComputesTheTcpChecksum := by
  intro s hr
  have hrange : (effect .pha (effect .phb (effect .clr s))).InRange := by simpa [State.InRange] using hr
  have hadd := (streamOf_clr_phb_pha s).add hrange
  simp only [operandBytes_effect, wordBytes_eq] at hadd
  exact ⟨_, execSeq_eq_foldl _ s, hadd.finish_acc⟩

end Sys2Proof.Machine
end

section
/-! SUPPORT. What VAL does out of range, on a frame that fails a check and on a frame that passes them, and which bytes of
the frame decide it, for the statements of 42_validator.md. -/

namespace Sys2Proof.Machine

/-! ## The range check (42_validator.md R141) -/

/-- Settles O25: out of range, VAL is a `raise`. -/
theorem valOutOfRangeIsACommandError : Obligations.ValOutOfRangeIsACommandError := by
  intro s hr
  rw [exec_eq_effect, effect_of_not_inRange (.inr rfl) hr]
  rfl

/-! ## The parse checks (R142 to R146, R150) -/

/-- The parse checks on the bytes of the buffer, in the order of 60_exceptions.md R178. -/
theorem parseCheck_operandBytes (s : State) :
    parseCheck s.operandBytes =
      if s.len.toNat < 34 then some .shortFrame
      else if s.len.toNat < 14 + totalLength s.frameFn then some .totlenGtFrame
      else if headerLength s.frameFn < 20 then some .ihlLt20
      else if (totalLength s.frameFn : Int) - headerLength s.frameFn < 18 then some .segShort
      else none := by
  unfold parseCheck
  rw [operandBytes_length]
  split
  case isTrue => rfl
  case isFalse h =>
    obtain ⟨hihl, htot⟩ := frame_header_eq s (by omega)
    rw [frameSeglen, hihl, htot]

/-- VAL of a frame that fails a check is that check's `parse_fail`. -/
theorem exec_val_of_parseCheck {s : State} {r : ParseReason} (hr : s.InRange)
    (hc : parseCheck s.operandBytes = some r) : exec .val s = .next (s.parseFail r) := by
  rw [execVal_of_inRange s hr, State.validate, hc]

/-- Settles O26: the conditions of each clause pick out its branch of the checks. -/
theorem valParseFailureReportsTheFirstReason : Obligations.ValParseFailureReportsTheFirstReason := by
  intro s hr
  refine ⟨fun hn => exec_val_of_parseCheck hr ?_, fun hn ht => exec_val_of_parseCheck hr ?_,
    fun hn ht hl => exec_val_of_parseCheck hr ?_, fun hn ht hl hs => exec_val_of_parseCheck hr ?_, rfl, rfl, rfl, rfl⟩
  · rw [parseCheck_operandBytes, if_pos hn]
  · rw [parseCheck_operandBytes, if_neg hn.not_gt, if_pos ht]
  · rw [parseCheck_operandBytes, if_neg hn.not_gt, if_neg ht.not_gt, if_pos hl]
  · rw [parseCheck_operandBytes, if_neg hn.not_gt, if_neg ht.not_gt, if_neg hl.not_gt, if_pos hs]

/-! ## A frame that passes the checks (R147 to R151) -/

/-- Feeding bytes after a CLR leaves their word sum, when it fits, and their parity. -/
theorem State.feedBytes_setStream_zero (s : State) {bs : List Byte} (h : wordSum bs < 2 ^ 32) :
    (s.setStream 0 false).feedBytes bs = s.setStream (BitVec.ofNat 32 (wordSum bs)) (decide (bs.length % 2 = 1)) := by
  obtain ⟨a, p, he⟩ := (s.setStream 0 false).feedBytes_eq_setStream bs
  have hstart : Accumulates (s.setStream 0 false).acc.toNat (wordSum []) := ⟨rfl, by simp, fun _ => rfl⟩
  obtain ⟨hacc, hphase⟩ := State.feedBytes_accumulates hstart rfl bs
  rw [he] at hacc hphase ⊢
  have ha : a = BitVec.ofNat 32 (wordSum bs) :=
    BitVec.eq_of_toNat_eq ((hacc.exact h).trans (Nat.mod_eq_of_lt h).symm)
  have hp : p = decide (bs.length % 2 = 1) := hphase
  rw [ha, hp]
  rfl

/-- The checksum of an accumulator that is a word sum. -/
theorem finish_ofNat_wordSum {bs : List Byte} (h : wordSum bs < 2 ^ 32) :
    finish (BitVec.ofNat 32 (wordSum bs)) = compute bs := by
  apply Accumulates.finish_eq_compute
  rw [BitVec.toNat_ofNat, Nat.mod_eq_of_lt h]
  exact ⟨rfl, Iff.rfl, fun _ => rfl⟩

theorem segmentLength_lt (f : Nat → Byte) : segmentLength f < 65536 :=
  (Nat.sub_le _ _).trans_lt (totalLength_lt f)

/-- The stream of a validation is too short for its word sum to carry out of ACC. -/
theorem wordSum_validationStream_lt (f : Nat → Byte) : wordSum (validationStream f) < 2 ^ 32 := by
  have hsum := wordSum_le (validationStream f)
  have hseg := segmentLength_lt f
  rw [validationStream_length] at hsum
  omega

/-- The state VAL leaves on a frame that passes the checks, from the bytes of the frame. -/
def State.validated (s : State) (f : Nat → Byte) : State :=
  let cmp := compute (validationStream f)
  (((s.setPhdr (bigEndian32 (f 26) (f 27) (f 28) (f 29)) (bigEndian32 (f 30) (f 31) (f 32) (f 33))
    (BitVec.ofNat 32 (0x60000 + segmentLength f))).setStream
    (BitVec.ofNat 32 (wordSum (validationStream f))) (decide (segmentLength f % 2 = 1))).setResult cmp).setVerdict
    (compareVerdict cmp (embeddedChecksum f)) (BitVec.ofNat 6 (headerLength f)) (BitVec.ofNat 16 (totalLength f))
    (embeddedChecksum f) cmp

section
variable (s : State) (hp : ParsePasses s.frameFn s.len.toNat)
include hp

/-- The addresses of the pseudo-header (R149). -/
theorem frameAddresses_of_passes :
    frameSource s.operandBytes = bigEndian32 (s.frameFn 26) (s.frameFn 27) (s.frameFn 28) (s.frameFn 29) ∧
    frameDestination s.operandBytes = bigEndian32 (s.frameFn 30) (s.frameFn 31) (s.frameFn 32) (s.frameFn 33) := by
  have hbyte (i : Nat) (hi : i < 34) : frameByte s.operandBytes i = s.frameFn i :=
    frameByte_eq s i (hi.trans_le hp.1)
  rw [frameSource, frameDestination, be32_eq_bigEndian32, be32_eq_bigEndian32]
  simp [hbyte]

/-- PHDR2 of the frame (R149). -/
theorem phdr2Of_frameSeglen_of_passes :
    phdr2Of (BitVec.ofInt 16 (frameSeglen s.operandBytes)) = BitVec.ofNat 32 (0x60000 + segmentLength s.frameFn) := by
  have hseg := segmentLength_lt s.frameFn
  apply BitVec.eq_of_toNat_eq
  rw [frameSeglen_of_passes s hp, phdr2Of_toNat, BitVec.toNat_ofNat, BitVec.toNat_ofNat]
  omega

/-- VAL of a frame that passes the checks (R140). -/
theorem exec_val_of_passes (hr : s.InRange) : exec .val s = .next (s.validated s.frameFn) := by
  obtain ⟨hihl, htot⟩ := frame_header_eq s hp.1
  obtain ⟨hsrc, hdst⟩ := frameAddresses_of_passes s hp
  have hsum := wordSum_validationStream_lt s.frameFn
  have htotlen : frameTotlen s.operandBytes = BitVec.ofNat 16 (totalLength s.frameFn) := by
    rw [← htot, BitVec.ofNat_toNat, BitVec.setWidth_eq]
  have hparity : (12 + segmentLength s.frameFn) % 2 = segmentLength s.frameFn % 2 := by omega
  rw [execVal_of_inRange s hr, State.validate, parseCheck_of_passes s hp]
  simp only [State.validateFrame_eq, frameStream_of_passes s hp, State.feedBytes_setStream_zero _ hsum,
    State.setStream_acc, finish_ofNat_wordSum hsum, (frame_segment_eq s hp).2, hihl, htotlen, hsrc, hdst,
    phdr2Of_frameSeglen_of_passes s hp, validationStream_length, hparity, State.validated]

end

/-- V_STATUS after a comparison (10_state.md R40). -/
theorem word_compareVerdict (cmp emb : Half) : (compareVerdict cmp emb).word = if cmp = emb then 0x1 else 0x2 := by
  unfold compareVerdict
  split <;> rfl

/-- The writes of a VAL that passes the checks, field by field. Stated for any values: on VAL's own, `rfl` would evaluate
them. -/
theorem State.setPhdr_setStream_setResult_setVerdict (s : State) (p0 p1 p2 a : Word) (p : Bool) (r : Half) (v : Verdict)
    (ihl : BitVec 6) (tot emb cmp : Half) :
    (((s.setPhdr p0 p1 p2).setStream a p).setResult r).setVerdict v ihl tot emb cmp =
      { s with acc := a, phase := p, result := r, phdr0 := p0, phdr1 := p1, phdr2 := p2, verdict := v, vIhl := ihl,
               vTotlen := tot, vEmb := emb, vCmp := cmp } := rfl

/-- Settles O27: the statement's state is `State.validated` field by field. -/
theorem valComputesTheTcpChecksum : Obligations.ValComputesTheTcpChecksum := by
  intro s hr hp
  refine ⟨?_, validationStream_length s.frameFn, word_compareVerdict (compute (validationStream s.frameFn)) _⟩
  rw [exec_val_of_passes s hp hr, State.validated, State.setPhdr_setStream_setResult_setVerdict, compareVerdict]

/-! ## What VAL's results depend on (R152, R154) -/

/-- Frames with the same bytes are the same list. -/
theorem operandBytes_congr {s t : State} (hl : s.len = t.len) (h : ∀ i < s.len.toNat, s.frameFn i = t.frameFn i) :
    s.operandBytes = t.operandBytes := by
  rw [operandBytes_eq_map_frameFn, operandBytes_eq_map_frameFn, ← hl]
  exact List.map_congr_left fun i hi => h i (List.mem_range.1 hi)

/-- Settles O28: each branch of VAL writes values computed from the list of the frame's bytes alone. -/
theorem valDependsOnTheFrameAlone : Obligations.ValDependsOnTheFrameAlone := by
  intro s t hs ht hl hbytes
  refine ⟨_, _, execVal_of_inRange s hs, execVal_of_inRange t ht, ?_⟩
  rw [← operandBytes_congr hl hbytes, State.validate, State.validate]
  cases parseCheck s.operandBytes with
  | some r => exact ⟨rfl, rfl, rfl, rfl, rfl, fun h => absurd rfl (h r)⟩
  | none => simp [State.validateFrame_eq, State.feedBytes_eq]

/-- Frames that agree on every byte VAL reads, the checksum field apart (R152). -/
structure SameButChecksum (f g : Nat → Byte) : Prop where
  header : headerLength g = headerLength f
  total : totalLength g = totalLength f
  addresses : ∀ i, 26 ≤ i → i < 34 → g i = f i
  segment : ∀ k < segmentLength f, k ≠ 16 → k ≠ 17 → g (14 + headerLength f + k) = f (14 + headerLength f + k)

section
variable {f g : Nat → Byte} (h : SameButChecksum f g)
include h

theorem SameButChecksum.segmentLength_eq : segmentLength g = segmentLength f := by
  rw [segmentLength, segmentLength, h.header, h.total]

/-- The second frame passes the checks where it is long enough. -/
theorem SameButChecksum.parsePasses {n m : Nat} (hp : ParsePasses f n) (hm : 34 ≤ m) (ht : 14 + totalLength f ≤ m) :
    ParsePasses g m := by
  obtain ⟨-, -, hlengths⟩ := hp
  rw [ParsePasses, h.header, h.total]
  exact ⟨hm, ht, hlengths⟩

/-- The stream has zeros in the place of the checksum field. -/
theorem SameButChecksum.validationStream_eq : validationStream g = validationStream f := by
  rw [validationStream, validationStream, h.segmentLength_eq, h.header]
  congr 1
  · simp [h.addresses]
  · refine List.map_congr_left fun k hk => ?_
    split
    case isTrue => rfl
    case isFalse hfield =>
      obtain ⟨h16, h17⟩ := not_or.1 hfield
      exact h.segment k (List.mem_range.1 hk) h16 h17

/-- VAL's results on the two frames, V_EMB and the verdict apart. -/
theorem SameButChecksum.validated_eq (s t : State) :
    (t.validated g).vCmp = (s.validated f).vCmp ∧ (t.validated g).result = (s.validated f).result ∧
    (t.validated g).acc = (s.validated f).acc ∧ (t.validated g).phase = (s.validated f).phase ∧
    (t.validated g).phdr0 = (s.validated f).phdr0 ∧ (t.validated g).phdr1 = (s.validated f).phdr1 ∧
    (t.validated g).phdr2 = (s.validated f).phdr2 ∧ (t.validated g).vIhl = (s.validated f).vIhl ∧
    (t.validated g).vTotlen = (s.validated f).vTotlen := by
  simp [State.validated, h.validationStream_eq, h.segmentLength_eq, h.header, h.total, h.addresses]

end

theorem State.validated_vEmb (s : State) (f : Nat → Byte) : (s.validated f).vEmb = embeddedChecksum f := rfl

theorem State.validated_verdict (s : State) (f : Nat → Byte) :
    (s.validated f).verdict = compareVerdict (s.validated f).vCmp (s.validated f).vEmb := rfl

/-- Settles O29: such frames agree in the checksum field too. -/
theorem valIgnoresTheOtherFields : Obligations.ValIgnoresTheOtherFields := by
  intro s t hs ht hp htotal hn h14 h16 h17 haddr hseg
  have ⟨_, _, _, hlong⟩ := hp
  have hheader : headerLength t.frameFn = headerLength s.frameFn := by rw [headerLength, headerLength, h14]
  have hsame : SameButChecksum s.frameFn t.frameFn :=
    { header := hheader
      total := by rw [totalLength, totalLength, h16, h17]
      addresses := fun i hi hi' => (haddr i hi hi').symm
      segment := fun k hk _ _ => (hseg _ (by omega) (by unfold segmentLength at hk; omega)).symm }
  have hemb : (t.validated t.frameFn).vEmb = (s.validated s.frameFn).vEmb := by
    rw [State.validated_vEmb, State.validated_vEmb, embeddedChecksum, embeddedChecksum, hheader,
      hseg _ (by omega) (by omega), hseg _ (by omega) (by omega)]
  obtain ⟨hcmp, hresult, hacc, hphase, hp0, hp1, hp2, hihl, htot⟩ := hsame.validated_eq s t
  refine ⟨_, _, exec_val_of_passes s hp hs, exec_val_of_passes t (hsame.parsePasses hp hn htotal) ht, ?_, hihl.symm,
    htot.symm, hemb.symm, hcmp.symm, hresult.symm, hacc.symm, hphase.symm, hp0.symm, hp1.symm, hp2.symm⟩
  rw [State.validated_verdict, State.validated_verdict, hcmp, hemb]

/-- A 16-bit value from its two bytes. -/
theorem ofNat_high_low (v : Half) :
    BitVec.ofNat 16 ((BitVec.ofNat 8 (v.toNat / 256)).toNat * 256 + (BitVec.ofNat 8 (v.toNat % 256)).toNat) = v := by
  have := v.isLt
  apply BitVec.eq_of_toNat_eq
  simp only [BitVec.toNat_ofNat]
  omega

/-- Settles O30: the field lies past the header, so the two frames are `SameButChecksum`. -/
theorem valCorrectedFrameMatches : Obligations.ValCorrectedFrameMatches := by
  intro s t t1 hs hp ht1 haddr hlen hbytes hdiff hi lo
  rw [exec_val_of_passes s hp hs] at ht1
  cases ht1
  have ⟨hn, htotal, hhead, _⟩ := hp
  have hheader : headerLength t.frameFn = headerLength s.frameFn := by
    rw [headerLength, headerLength, hdiff 14 (by omega) (by omega)]
  have hsame : SameButChecksum s.frameFn t.frameFn :=
    { header := hheader
      total := by
        rw [totalLength, totalLength, hdiff 16 (by omega) (by omega), hdiff 17 (by omega) (by omega)]
      addresses := fun i _ _ => hdiff i (by omega) (by omega)
      segment := fun k _ h16 h17 => hdiff _ (by omega) (by omega) }
  have ht : t.InRange := by rwa [State.InRange, haddr, hlen, hbytes]
  obtain ⟨hcmp, hresult, hacc, hphase, hp0, hp1, hp2, hihl, htot⟩ := hsame.validated_eq s t
  have hemb : (t.validated t.frameFn).vEmb = BitVec.ofNat 16 (hi.toNat * 256 + lo.toNat) := by
    rw [State.validated_vEmb, embeddedChecksum, hheader]
  have hverdict : (t.validated t.frameFn).verdict =
      if (t.validated t.frameFn).vEmb = (s.validated s.frameFn).vCmp then .matched else .mismatched := by
    rw [State.validated_verdict, hcmp, compareVerdict]
    exact if_congr eq_comm rfl rfl
  refine ⟨_, exec_val_of_passes t (hsame.parsePasses hp (hlen ▸ hn) (hlen ▸ htotal)) ht, hcmp, hresult, hacc, hphase,
    hp0, hp1, hp2, hihl, htot, hemb, hverdict, fun hhi hlo => ?_⟩
  have hmatch : (t.validated t.frameFn).vEmb = (s.validated s.frameFn).vCmp := by
    rw [hemb, hhi, hlo, ofNat_high_low]
  exact ⟨hverdict.trans (if_pos hmatch), hmatch⟩

end Sys2Proof.Machine
end

section
/-! SUPPORT. Errors: the bus-error table against `route`, what a command word raises, and the idle block, for the statements of
60_exceptions.md. -/

namespace Sys2Proof.Machine

/-- Settles O6: `step_idle`. -/
theorem idleBlockKeepsItsState : Obligations.IdleBlockKeepsItsState := fun _ hi => step_idle hi

/-! ## Command errors (60_exceptions.md R174 to R177) -/

@[simp] theorem commandEffect_addr (w : Word) (s : State) : (commandEffect w s).addr = s.addr := by
  unfold commandEffect; split <;> simp

@[simp] theorem commandEffect_len (w : Word) (s : State) : (commandEffect w s).len = s.len := by
  unfold commandEffect; split <;> simp

/-- An illegal word raises CmdError(CMD) and does nothing else (R175). -/
theorem commandEffect_of_illegal {w : Word} (s : State) (hw : IllegalCommand w) : commandEffect w s = s.raise .cmd := by
  rcases commandEffect_cases w s with ⟨_, _, _, hl, _⟩ | ⟨_, hc⟩
  · exact absurd hw hl
  · exact hc

/-- Settles O32: a word's error bits are `commandEffect_errCmd` and `commandEffect_errRange`. -/
theorem commandErrorsFollowTheTable : Obligations.CommandErrorsFollowTheTable := by
  intro w s
  have hrange : decide (s.bufBytes < s.addr.toNat + s.len.toNat) = decide (¬ s.InRange) :=
    decide_eq_decide.2 Nat.not_le.symm
  refine ⟨_, runCommand_eq w s, commandEffect_errCmd w s, ?_, commandEffect_addr w s, commandEffect_len w s⟩
  rw [hrange]
  exact commandEffect_errRange w s

/-- Settles O4: a CMD write runs its word, and the word sets ERR_CMD exactly when it is illegal. -/
theorem illegalWordsRaiseCmdError : Obligations.IllegalWordsRaiseCmdError := by
  intro s w rest hi
  refine ⟨fun hw => ?_, fun hw => ⟨_, step_command hi, ?_⟩⟩
  · rw [step_command hi, commandEffect_of_illegal _ hw]; rfl
  · rw [State.respond_errCmd, commandEffect_errCmd, decide_eq_false hw, Bool.or_false]; rfl

/-! ## Bus errors (60_exceptions.md R170, R171) -/

/-- The bus-error cause of a routed transaction, none when it is taken. -/
def routeFault : Except Fault Access → Option Fault
  | .error f => some f
  | .ok _ => none

theorem routeFault_eq_some_iff {r : Except Fault Access} {f : Fault} : routeFault r = some f ↔ r = .error f := by
  cases r <;> simp [routeFault]

theorem routeFault_eq_none_iff {r : Except Fault Access} : routeFault r = none ↔ ∃ a, r = .ok a := by
  cases r <;> simp [routeFault]

/-- Rows 1 to 3 of R171, then the window of the offset. -/
theorem route_eq_ite (b : Nat) (x : Transaction) :
    route b x =
      if x.size = 3 then .error .badSize
      else if 0x100 ≤ x.off.toNat ∧ x.off.toNat ≤ 0xFFFF then .error .reservedRegion
      else if x.off.toNat % 2 ^ x.size.toNat ≠ 0 then .error .misaligned
      else if x.off.toNat < 0x100 then routeRegister x (2 ^ x.size.toNat)
      else routeBuffer b x (2 ^ x.size.toNat) (x.off.toNat - 0x10000) := by
  unfold route
  rw [sizeBytes_eq]
  by_cases hsize : x.size = 3
  · rw [if_pos hsize, if_pos hsize]
  · rw [if_neg hsize, if_neg hsize]

theorem accessSize_eq_four_iff : ∀ code : BitVec 2, 2 ^ code.toNat = 4 ↔ code = 2 := by
  decide

/-- The offsets of the read-only registers (10_state.md R23). -/
def readOnlyOffsets : List Nat := [0x00, 0x04, 0x1C, 0x20, 0x30, 0x34, 0x38, 0x40, 0x44, 0x48, 0x4C, 0x50]

theorem readOnlyOffsets_lt : ∀ off ∈ readOnlyOffsets, off < 0x100 := by
  decide

/-- A register takes no write exactly when it is read-only (R23). -/
theorem writeAccess_eq_none_iff {off : Nat} {r : RegName} (h : registerAt off = some r) (v : Word) :
    r.writeAccess v = none ↔ off ∈ readOnlyOffsets := by
  rw [← Option.isNone_iff_eq_none, writeAccess_isNone off r h v]
  exact List.contains_iff_mem

/-- Rows 4 to 6 of R171: a transaction in the register window. -/
theorem routeFault_routeRegister {x : Transaction} (ho : x.off.toNat < 0x100)
    (hal : x.off.toNat % 2 ^ x.size.toNat = 0) :
    routeFault (routeRegister x (2 ^ x.size.toNat)) =
      if x.size ≠ 2 then some .regWidth
      else if x.off.toNat = 0x3C ∨ 0x54 ≤ x.off.toNat then some .reservedSlot
      else if x.write = true ∧ x.off.toNat ∈ readOnlyOffsets then some .roWrite
      else none := by
  unfold routeRegister
  by_cases hsize : x.size = 2
  · rw [hsize] at hal ⊢
    have hslot := registerAt_eq_none_iff x.off.toNat ho hal
    rw [if_neg (by decide), if_neg (by decide)]
    cases hreg : registerAt x.off.toNat with
    | none => rw [if_pos (hslot.1 hreg)]; rfl
    | some r =>
      have hro := writeAccess_eq_none_iff hreg x.wdata
      rw [if_neg (by rw [← hslot, hreg]; exact nofun)]
      cases x.write with
      | false => rfl
      | true =>
        dsimp only
        cases hw : r.writeAccess x.wdata with
        | none => exact (if_pos ⟨rfl, hro.1 hw⟩).symm
        | some a =>
          have htaken : x.off.toNat ∉ readOnlyOffsets := fun hmem => nomatch hw.symm.trans (hro.2 hmem)
          exact (if_neg fun h => htaken h.2).symm
  · rw [if_pos (mt (accessSize_eq_four_iff x.size).1 hsize), if_pos hsize]; rfl

/-- Row 7 of R171: a transaction in the buffer window. -/
theorem routeFault_routeBuffer (b : Nat) (x : Transaction) (n a : Nat) :
    routeFault (routeBuffer b x n a) = if b ≤ a then some .bufRange else none := by
  unfold routeBuffer
  by_cases hb : b ≤ a
  · rw [if_pos hb, if_pos hb]; rfl
  · rw [if_neg hb, if_neg hb]
    cases x.write <;> rfl

/-- The table's rows, read one after the other. -/
theorem firstBusError_eq_ite (b : Nat) (x : Transaction) :
    firstBusError b x =
      if x.size = 3 then some .badSize
      else if 0x100 ≤ x.off.toNat ∧ x.off.toNat ≤ 0xFFFF then some .reservedRegion
      else if x.off.toNat % 2 ^ x.size.toNat ≠ 0 then some .misaligned
      else if x.off.toNat < 0x100 ∧ x.size ≠ 2 then some .regWidth
      else if x.off.toNat < 0x100 ∧ (x.off.toNat = 0x3C ∨ 0x54 ≤ x.off.toNat) then some .reservedSlot
      else if x.write = true ∧ x.off.toNat ∈ readOnlyOffsets then some .roWrite
      else if 0x10000 ≤ x.off.toNat ∧ b ≤ x.off.toNat - 0x10000 then some .bufRange
      else none := by
  have row (c : Bool) (f : Fault) (rows : List (Bool × Fault)) :
      (((c, f) :: rows).find? fun r => r.1).map (fun r => r.2) =
        if c = true then some f else (rows.find? fun r => r.1).map fun r => r.2 := by
    cases c <;> rfl
  unfold firstBusError busErrorTable
  simp only [row, beq_iff_eq, decide_eq_true_eq, Bool.and_eq_true, bne_iff_ne, List.contains_iff_mem]
  rfl

/-- The cause `route` raises is the table's first applicable row: rows 1 to 3 are shared, and rows 4 to 6 apply in the register
window alone, row 7 in the buffer window alone. -/
theorem routeFault_route (b : Nat) (x : Transaction) : routeFault (route b x) = firstBusError b x := by
  rw [route_eq_ite, firstBusError_eq_ite, apply_ite routeFault, apply_ite routeFault, apply_ite routeFault]
  refine if_ctx_congr .rfl (fun _ => rfl) fun _ => if_ctx_congr .rfl (fun _ => rfl) fun hregion =>
    if_ctx_congr .rfl (fun _ => rfl) fun hal => ?_
  by_cases ho : x.off.toNat < 0x100
  · have hbuf : ¬ 0x10000 ≤ x.off.toNat := by omega
    rw [if_pos ho, routeFault_routeRegister ho (not_not.1 hal)]
    simp only [ho, hbuf, true_and, false_and, if_false]
  · have hbuf : 0x10000 ≤ x.off.toNat := by omega
    have hro : x.off.toNat ∉ readOnlyOffsets := mt (readOnlyOffsets_lt _) ho
    rw [if_neg ho, routeFault_routeBuffer]
    simp only [ho, hro, hbuf, true_and, false_and, and_false, if_false]

/-- Settles O34: `route` raises the table's first row, and a transaction without one is taken. -/
theorem busErrorsFollowTheTable : Obligations.BusErrorsFollowTheTable := by
  intro s x rest hi
  rw [← routeFault_route]
  refine ⟨fun f hf => ⟨step_error hi (routeFault_eq_some_iff.1 hf), rfl, rfl⟩, fun hn => ?_⟩
  obtain ⟨a, ha⟩ := routeFault_eq_none_iff.1 hn
  refine ⟨_, accessData (s.setInbox rest) a, step_ok hi ha, ?_, rfl⟩
  rw [State.respond_outbox, accessEffect_outbox]; rfl

end Sys2Proof.Machine
end

section
/-! SUPPORT. The registers after a reset, and the empty stream it leaves, for the statements of 70_reset_and_hazards.md. -/

namespace Sys2Proof.Machine

/-! ## Reset (70_reset_and_hazards.md R190, R191) -/

/-- Past the two constants, every register reads 0 after a reset (R190). -/
theorem State.readReg_afterReset_eq_zero {r : RegName} (s : State) (hid : r ≠ .ID) (hbuf : r ≠ .BUFSIZE) :
    s.afterReset.readReg r = 0 := by
  cases r with
  | ID => exact absurd rfl hid
  | BUFSIZE => exact absurd rfl hbuf
  | _ => rfl

/-- Settles O44: a reset step is `State.afterReset`, whatever the cut transaction is. -/
theorem resetSetsEveryRegister : Obligations.ResetSetsEveryRegister := by
  intro s cut rest hi
  exact ⟨(s.setInbox rest).afterReset, step_reset hi, rfl, rfl, State.readReg_afterReset_eq_zero _ nofun nofun,
    rfl, rfl, rfl, rfl, rfl, rfl, rfl, rfl, rfl, rfl, rfl, rfl, State.readReg_afterReset_eq_zero _ nofun nofun,
    rfl, rfl, rfl, rfl, rfl⟩

/-! ## FIN after a reset (R192) -/

/-- A reset leaves the empty stream (40_checksum_engine.md R109). -/
theorem State.streamOf_afterReset (s : State) : StreamOf [] s.afterReset :=
  .start _ s.afterReset_acc s.afterReset_phase

/-- The source's checksum of no bytes (40_checksum_engine.md R111). -/
theorem compute_nil : compute [] = 0xFFFF := by decide

/-- Settles O46: FIN computes the checksum of the empty stream. -/
theorem finAfterResetIsTheEmptyChecksum : Obligations.FinAfterResetIsTheEmptyChecksum := by
  intro s t cut rest hi ht
  obtain rfl : (s.setInbox rest).afterReset = t := Host.Outcome.next.inj ((step_reset hi).symm.trans ht)
  obtain ⟨hfin, -⟩ := finGivesComputeOfTheStream [] _ (s.setInbox rest).streamOf_afterReset
  rwa [compute_nil] at hfin

end Sys2Proof.Machine
end

section
/-! SUPPORT. The encoding of commands both ways, the host's reads and writes of registers, and the block's invariant, which
holds after a reset and is kept by every step. -/

namespace Sys2Proof.Machine

/-! ## Encoding (30_encoding.md R80 to R83) -/

/-- Settles O1: `decode_ok_spec` one way, `decode_encode` the other. -/
theorem decodeAcceptsExactlyEncodings : Obligations.DecodeAcceptsExactlyEncodings := by
  intro w i
  constructor
  · intro hd
    obtain ⟨hw, he, -⟩ := decode_ok_spec w i hd
    exact ⟨hw, he⟩
  · rintro ⟨hw, rfl⟩
    exact decode_encode i hw

/-- Settles O3: the legal words are encodings, and each illegal word fails one test of the decoder. -/
theorem specWordsDecode : Obligations.SpecWordsDecode :=
  ⟨decode_encode .nop rfl, decode_encode .add rfl, decode_encode (.feed 3) rfl, decode_encode .phb rfl,
    decode_encode .val rfl, rfl, rfl, rfl, rfl⟩

/-! ## Reads and writes of registers (10_state.md R22 to R44) -/

/-- Settles O35: the statement's table is `readReg` at each register's slot. -/
theorem readsReturnTheRegisters : Obligations.ReadsReturnTheRegisters := by
  intro s rest d off v hmem
  obtain ⟨r, hr⟩ : ∃ r : RegName, (r.offset, s.readReg r) = (off, v) := by
    revert hmem
    generalize (off, v) = entry
    revert entry
    simp only [List.forall_mem_cons, BitVec.ofNat_toNat]
    refine ⟨⟨.ID, rfl⟩, ⟨.BUFSIZE, rfl⟩, ⟨.CMD, rfl⟩, ⟨.STATUS, rfl⟩, ⟨.ADDR, rfl⟩, ⟨.LEN, rfl⟩, ⟨.DATA, rfl⟩,
      ⟨.ACC, rfl⟩, ⟨.RESULT, rfl⟩, ⟨.PH_SRC, rfl⟩, ⟨.PH_DST, rfl⟩, ⟨.PH_LEN, rfl⟩, ⟨.PHDR0, rfl⟩, ⟨.PHDR1, rfl⟩,
      ⟨.PHDR2, rfl⟩, ⟨.V_STATUS, ?_⟩, ⟨.V_IHL, rfl⟩, ⟨.V_TOTLEN, rfl⟩, ⟨.V_EMB, rfl⟩, ⟨.V_CMP, rfl⟩, nofun⟩
    rw [State.readReg]
    rcases s.verdict with _ | _ | _ | (_ | _ | _ | _) <;> rfl
  cases hr
  exact step_readRegister r.offset r r.offset_slot.1 r.offset_slot.2 (registerAt_offset r)

/-- The register a write to an operand register names (R22, R23). -/
def OperandReg.regName : OperandReg → RegName
  | .ADDR => .ADDR
  | .LEN => .LEN
  | .DATA => .DATA
  | .PH_SRC => .PH_SRC
  | .PH_DST => .PH_DST
  | .PH_LEN => .PH_LEN

theorem OperandReg.writeAccess_regName (r : OperandReg) (v : Word) :
    r.regName.writeAccess v = some (.writeOperand r v) := by
  cases r <;> rfl

/-- A 4-byte write to an operand register (R23). -/
theorem step_writeOperand {s : State} {rest : List PortEvent} {v : Word} (r : OperandReg)
    (hi : s.inbox = .access (writeReg r.regName v) :: rest) :
    step s = .next (((s.setInbox rest).writeOperand r v).respond (.okay 0)) :=
  step_writeReg (r.writeAccess_regName v) hi

/-- Settles O36: each clause is `step_writeOperand` of its register. -/
theorem operandWritesStoreTheData : Obligations.OperandWritesStoreTheData := by
  intro s rest v taken writes
  refine ⟨step_writeOperand .ADDR, step_writeOperand .LEN, step_writeOperand .DATA, step_writeOperand .PH_SRC,
    step_writeOperand .PH_DST, fun hi => ?_⟩
  rw [BitVec.ofNat_toNat]
  exact step_writeOperand .PH_LEN hi

/-! ## The invariant (10_state.md R39 to R46) -/

/-- What the invariant speaks of: BUF_BYTES, BUF, the V_ registers and PHDR0 to PHDR2. -/
def State.invFields (s : State) : Nat × Memory × (Verdict × BitVec 6 × Half × Half × Half) × Word × Word × Word :=
  (s.bufBytes, s.buf, (s.verdict, s.vIhl, s.vTotlen, s.vEmb, s.vCmp), s.phdr0, s.phdr1, s.phdr2)

/-- The invariant depends on those alone. -/
theorem State.Inv.congr {s t : State} (h : s.Inv) (he : t.invFields = s.invFields) : t.Inv := by
  obtain ⟨legal, bufWf, bufInside, verdict, phdr⟩ := h
  cases s
  cases t
  simp only [State.invFields, Prod.mk.injEq] at he
  obtain ⟨rfl, rfl, ⟨rfl, rfl, rfl, rfl, rfl⟩, rfl, rfl, rfl⟩ := he
  exact ⟨legal, bufWf, bufInside, verdict, phdr⟩

/-- A reset leaves an empty buffer and zero registers, with BUF_BYTES kept (70_reset_and_hazards.md R190). -/
theorem State.afterReset_inv {s : State} (h : Config.LegalBufBytes s.bufBytes) : s.afterReset.Inv :=
  ⟨h, rfl, rfl, ⟨rfl, rfl, rfl, rfl⟩, .inl ⟨rfl, rfl, rfl⟩⟩

/-- Settles O51: the reset state's BUF_BYTES is legal, and its registers are as after a reset. -/
theorem resetMeetsTheInvariant : Obligations.ResetMeetsTheInvariant :=
  (State.afterReset_inv (s := State.reset) (by decide)).congr rfl

/-- A buffer write that ends inside the buffer keeps the invariant (20_memory.md R66). -/
theorem State.Inv.memWrite {s : State} (h : s.Inv) {a : Nat} {bs : List Byte} (hfit : a + bs.length ≤ s.bufBytes) :
    (s.memWrite a bs).Inv :=
  ⟨h.legal, Memory.insertAll_wf a bs h.bufWf, Memory.insertAll_inside a bs h.bufInside hfit, h.verdict, h.phdr⟩

/-- PHDR2 holds the zero byte and the protocol number (R39). -/
theorem phdr2Of_protocol (l : Half) : (phdr2Of l).extractLsb' 16 16 = 0x0006 :=
  BitVec.extractLsb'_append_eq_left

/-- Building a pseudo-header keeps the invariant, after a VAL too. -/
theorem State.Inv.setPhdr {s : State} (h : s.Inv) (p q : Word) (l : Half) : (s.setPhdr p q (phdr2Of l)).Inv := by
  have hproto := phdr2Of_protocol l
  have hheader : s.decodedHeader → (s.setPhdr p q (phdr2Of l)).decodedHeader := by
    rintro ⟨h4, hlo, hhi, hseg, hfit, -⟩
    exact ⟨h4, hlo, hhi, hseg, hfit, hproto⟩
  refine ⟨h.legal, h.bufWf, h.bufInside, ?_, .inr hproto⟩
  have hv := h.verdict
  unfold State.verdictConsistent at hv ⊢
  rw [State.setPhdr_verdict]
  cases hs : s.verdict <;> rw [hs] at hv
  case noneYet => exact hv
  case parseFail => exact hv
  case matched => exact hv.imp_left hheader
  case mismatched => exact hv.imp_left hheader

/-- A parse failure zeroes the V_ value registers (42_validator.md R150). -/
theorem State.Inv.parseFail {s : State} (h : s.Inv) (r : ParseReason) : (s.parseFail r).Inv :=
  ⟨h.legal, h.bufWf, h.bufInside, ⟨rfl, rfl, rfl, rfl⟩, h.phdr⟩

/-- A comparison that leaves a decoded header keeps the invariant (R151). -/
theorem State.Inv.setVerdict_compareVerdict {s : State} (h : s.Inv) {ihl : BitVec 6} {tot emb cmp : Half}
    (hd : (s.setVerdict (compareVerdict cmp emb) ihl tot emb cmp).decodedHeader) :
    (s.setVerdict (compareVerdict cmp emb) ihl tot emb cmp).Inv := by
  refine ⟨h.legal, h.bufWf, h.bufInside, ?_, h.phdr⟩
  unfold State.verdictConsistent
  rw [State.setVerdict_verdict]
  by_cases heq : cmp = emb
  · rw [compareVerdict, if_pos heq]; exact ⟨hd, heq⟩
  · rw [compareVerdict, if_neg heq]; exact ⟨hd, heq⟩

/-- The parse checks pass exactly when the header's lengths fit the frame and each other (R142 to R146). -/
theorem parseCheck_eq_none_iff (f : List Byte) :
    parseCheck f = none ↔
      34 ≤ f.length ∧ 14 + (frameTotlen f).toNat ≤ f.length ∧ 20 ≤ frameIhl f ∧
        frameIhl f + 18 ≤ (frameTotlen f).toNat := by
  unfold parseCheck frameSeglen
  split_ifs <;> simp only [false_iff, true_iff] <;> omega

/-- The IPv4 header length is four times a nibble (R143). -/
theorem frameIhl_bounds (f : List Byte) : frameIhl f % 4 = 0 ∧ frameIhl f ≤ 60 := by
  unfold frameIhl
  omega

/-- VAL of a frame in the buffer keeps the invariant: the checks bound the lengths it reports (R144 to R146). -/
theorem State.Inv.validate {s : State} (h : s.Inv) {f : List Byte} (hf : f.length ≤ s.bufBytes) : (s.validate f).Inv := by
  unfold State.validate
  cases hc : parseCheck f with
  | some r => exact h.parseFail r
  | none =>
    obtain ⟨-, htot, hlo, hseg⟩ := (parseCheck_eq_none_iff f).1 hc
    obtain ⟨h4, hhi⟩ := frameIhl_bounds f
    have hihl : (BitVec.ofNat 6 (frameIhl f)).toNat = frameIhl f := Nat.mod_eq_of_lt (by omega)
    have hbuilt := h.setPhdr (frameSource f) (frameDestination f) (BitVec.ofInt 16 (frameSeglen f))
    rw [State.validateFrame_eq]
    refine (hbuilt.congr ?_).setVerdict_compareVerdict ?_
    · simp [State.invFields]
    · rw [← hihl] at h4 hlo hhi hseg
      exact ⟨h4, hlo, hhi, hseg, by simpa using htot.trans hf, by simp [phdr2Of_protocol]⟩

/-- A command keeps the invariant (R45). -/
theorem State.Inv.effect {s : State} (h : s.Inv) {i : Instr} (hw : WellFormed i) : (effect i s).Inv := by
  rcases effect_cases s hw with ⟨-, -, a, p, he⟩ | ⟨-, he⟩ | ⟨-, he⟩ | ⟨-, hr, he⟩ | ⟨-, -, he⟩
  · exact he ▸ h.congr rfl
  · exact he ▸ h.congr rfl
  · exact he ▸ h.setPhdr s.phSrc s.phDst s.phLen
  · have hf : s.operandBytes.length ≤ s.bufBytes := by
      rw [operandBytes_length]
      exact (Nat.le_add_left _ _).trans hr
    exact he ▸ h.validate hf
  · exact he ▸ h.congr rfl

/-- A command word keeps the invariant, illegal ones included (60_exceptions.md R175). -/
theorem State.Inv.commandEffect {s : State} (h : s.Inv) (w : Word) : (commandEffect w s).Inv := by
  rcases commandEffect_cases w s with ⟨i, hw, -, -, he⟩ | ⟨-, he⟩
  · exact he ▸ h.effect hw
  · exact he ▸ h.congr rfl

/-- A taken transaction keeps the invariant: a buffer write is aligned, and BUF_BYTES is a multiple of 4 (20_memory.md R65). -/
theorem State.Inv.accessEffect {s : State} (h : s.Inv) {x : Transaction} {a : Access}
    (hr : route s.bufBytes x = .ok a) : (accessEffect s a).Inv := by
  rcases route_ok_cases hr with ⟨r, rfl, -⟩ | ⟨w, rfl, -⟩ | ⟨w, rfl, -⟩ | ⟨r, v, rfl, -⟩ | ⟨n, rfl, -⟩ |
    ⟨n, rfl, -, hn, ho, hal, hlt⟩
  · exact h
  · exact h.commandEffect w
  · exact h.congr rfl
  · exact h.congr (by cases r <;> rfl)
  · exact h
  · rw [sizeBytes_eq] at hn
    split at hn
    case isTrue => cases hn
    case isFalse hs =>
      cases hn
      obtain ⟨hwords, -, -⟩ := h.legal
      refine h.memWrite ?_
      rw [laneBytes, List.length_map, List.length_range]
      exact buffer_aligned_end hs ho hwords hal hlt

/-- Settles O50: each case of a step keeps the invariant. -/
theorem stepKeepsTheInvariant : Obligations.StepKeepsTheInvariant := by
  intro s t h hstep
  rcases step_cases hstep with ⟨-, rfl⟩ | ⟨cut, rest, -, rfl⟩ | ⟨x, rest, f, -, -, rfl⟩ | ⟨x, rest, a, -, hr, rfl⟩
  · exact h
  · exact State.afterReset_inv h.legal
  · exact h.congr rfl
  · have htaken : (s.setInbox rest).Inv := h.congr rfl
    exact (htaken.accessEffect hr).congr rfl

end Sys2Proof.Machine
end
